-- ==== Sys2Proof/Word.lean ====
section
/-! DEFINITION. The word types: a polynomial over GF(2) is a vector of `w` bits (00_scope.md R8), and a register of the
block is named by a 4-bit index (20_memory.md R61, R62). -/

namespace Sys2Proof

/-- A polynomial of width `w`: bit `i` is the coefficient of `x^i` (R8). -/
abbrev GF2Poly (w : Nat) := BitVec w

/-- The 4-bit register index of a host access (R61, R62). -/
abbrev RegIndex := BitVec 4

end Sys2Proof
end

