-- ==== Sys2Proof/Config.lean ====
section
/-! DEFINITION. The implementation parameters of 00_scope.md section 3. `W` and `OUT_DEPTH` are parameters of the spec,
so they are data here and no definition fixes them: every function takes them as they stand in the machine's `params`
(DESIGN CHOICE, log 1). `HOST_MAP` (R7, R71) touches nothing in the block and is an argument of the platform functions
of Machine/HostProgram.lean (log 10). The spec leaves no result of a command open, so there is no free value. -/

namespace Sys2Proof

/-- The parameters of one block with the ranges R5 and R6 give them. -/
structure Params where
  /-- The polynomial width in bits (R5). -/
  W : Nat
  /-- The number of entries of the output FIFO (R6). -/
  OUT_DEPTH : Nat
  W_range : 16 ≤ W ∧ W ≤ 255 := by decide
  OUT_DEPTH_range : 1 ≤ OUT_DEPTH ∧ OUT_DEPTH ≤ 255 := by decide
deriving DecidableEq, Repr

/-- A `W`-bit word of the block: every polynomial register, operand and stream element (R5). -/
abbrev Params.Word (P : Params) := GF2Poly P.W

/-- The default parameters: `W = 64` (R5) and `OUT_DEPTH = 1` (R6). -/
def Params.default : Params := { W := 64, OUT_DEPTH := 1 }

end Sys2Proof
end

