-- ==== Sys2Proof/Syntax.lean ====
section
/-! DEFINITION. The commands of the block: one constructor per row of the opcode map (30_encoding.md R82). A command word
has no operand fields (R80), so no constructor has an argument. An illegal word is no command of the map: the decoder
names it (Decode.lean) and the engine completes it as R107 says (Machine/Lifecycle.lean; log 14). -/

namespace Sys2Proof

/-- The seven commands of R82. -/
inductive Instr where
  /-- No operation (R106). -/
  | nop
  /-- Polynomial sum (R140). -/
  | add
  /-- Truncated polynomial product (R142). -/
  | mul
  /-- Remainder of polynomial division (R146). -/
  | rem
  /-- Primitivity test (R163). -/
  | isprim
  /-- Enumeration of the field elements (R171). -/
  | enum
  /-- Degree (R125). -/
  | deg
deriving DecidableEq, Repr

end Sys2Proof
end

