-- ==== Sys2Proof/WellFormed.lean ====
section
/-! DEFINITION. What is well-formed: parameters in the ranges of R5 and R6, a command word with a clear RSV field and an
assigned OPC (R80, R83), and a command at a width whose word has room for the OPC field (R80). -/

namespace Sys2Proof

/-- The ranges of R5 and R6, as a check on two numbers. -/
def paramsInRange (W OUT_DEPTH : Nat) : Bool :=
  decide (16 ≤ W ∧ W ≤ 255) && decide (1 ≤ OUT_DEPTH ∧ OUT_DEPTH ≤ 255)

/-- The RSV field is 0: nothing is set at bit 8 or above (R80). -/
def rsvClear {w : Nat} (cw : GF2Poly w) : Bool :=
  decide (cw.toNat / 2 ^ 8 = 0)

/-- The OPC field, bits 7:0, is one of the numbers R82 assigns. -/
def opcAssigned {w : Nat} (cw : GF2Poly w) : Bool :=
  decide (cw.toNat % 2 ^ 8 ≤ 6)

/-- A legal command word (R83). -/
def commandWordWf {w : Nat} (cw : GF2Poly w) : Bool :=
  rsvClear cw && opcAssigned cw

/-- A command is well-formed at a width when its word has the 8 bits of the OPC field (R80). It has no operand field to
check. -/
def Instr.wf (w : Nat) (_i : Instr) : Bool :=
  decide (8 ≤ w)

end Sys2Proof
end

