-- ==== Sys2Proof/Decode.lean ====
section
/-! DEFINITION. The command word (30_encoding.md): the fields of R80, the total decoder of R83 that rejects by name (R84),
and the encoder written from the opcode map of R82. Every function is for any width; the host's `decodeTableWord` reads
the table's words at the default width 64, for which the opcode table shows them. -/

namespace Sys2Proof

/-- Why a word is illegal (R84). -/
inductive Illegal where
  /-- A bit of RSV is set. -/
  | reservedBits
  /-- RSV is 0 and OPC is 0x07 to 0xFF. -/
  | reservedOpcode (opc : BitVec 8)
deriving DecidableEq, Repr

/-- What a word decodes to (R83). -/
inductive Decoded where
  | legal (i : Instr)
  | illegal (why : Illegal)
deriving DecidableEq, Repr

/-- `cw[7:0]`, the opcode (R80). -/
def opcField {w : Nat} (cw : GF2Poly w) : BitVec 8 :=
  cw.extractLsb' 0 8

/-- `cw[W-1:8]`, the reserved field (R80), moved down to bit 0. -/
def rsvField {w : Nat} (cw : GF2Poly w) : GF2Poly w :=
  cw >>> 8

/-- The opcode map, read from number to command (R82, R83). -/
def decodeOpcode (opc : BitVec 8) : Option Instr :=
  match opc.toNat with
  | 0x00 => some .nop
  | 0x01 => some .add
  | 0x02 => some .mul
  | 0x03 => some .rem
  | 0x04 => some .isprim
  | 0x05 => some .enum
  | 0x06 => some .deg
  | _ => none

/-- `decode` of R83, total on every word. -/
def decode {w : Nat} (cw : GF2Poly w) : Decoded :=
  if rsvField cw ≠ 0#w then .illegal .reservedBits
  else
    match decodeOpcode (opcField cw) with
    | some i => .legal i
    | none => .illegal (.reservedOpcode (opcField cw))

/-- The command of a legal word. -/
def Decoded.instr? : Decoded → Option Instr
  | .legal i => some i
  | .illegal _ => none

/-- The opcode map, read from command to number (R82). -/
def opcode : Instr → BitVec 8
  | .nop => 0x00#8
  | .add => 0x01#8
  | .mul => 0x02#8
  | .rem => 0x03#8
  | .isprim => 0x04#8
  | .enum => 0x05#8
  | .deg => 0x06#8

/-- The command's word: OPC in bits 7:0 and RSV = 0, `zext_W(OPC)` (R80, R82). -/
def encode (w : Nat) (i : Instr) : GF2Poly w :=
  (opcode i).setWidth w

/-- The host's question about a row of the opcode table: `nbits` bits of a word, with every bit above them 0, given to
the decoder at the table's width. -/
def decodeTableWord (nbits w : Nat) : Option Instr :=
  (decode (BitVec.ofNat Params.default.W (w % 2 ^ nbits))).instr?

end Sys2Proof
end

