-- ==== Sys2Proof/Machine/Poly.lean ====
section
/-! DEFINITION. The primitives of 41_representation.md: degree and left shift. Exclusive OR, equality and bit indexing
(R122) are those of `BitVec`. -/

namespace Sys2Proof.Machine

/-- The highest set bit of `a` below position `n`, or 0 where there is none. -/
def degBelow {w : Nat} (a : GF2Poly w) : Nat → Nat
  | 0 => 0
  | n + 1 => if a.getLsbD n then n else degBelow a n

/-- `deg(a)`: the highest index of a set bit, and 0 for the zero polynomial (R120). -/
def deg {w : Nat} (a : GF2Poly w) : Nat := degBelow a w

/-- `shl(a, k)`: multiplication by `x^k`, the bits shifted past position `w-1` lost (R121). -/
def shl {w : Nat} (a : GF2Poly w) (k : Nat) : GF2Poly w := a <<< k

/-- The polynomial `x`, bit pattern `0b10` (R8). -/
def polyX (w : Nat) : GF2Poly w := 0b10#w

end Sys2Proof.Machine
end

