-- ==== Sys2Proof/Machine/Arith.lean ====
section
/-! DEFINITION. The arithmetic of 42_arithmetic.md as functions of two operands: the full carry-less product with its
truncation and overflow (R142), and the shift-and-subtract remainder (R146). -/

namespace Sys2Proof.Machine

/-- The exclusive OR of `b * 2^i` over the set bits `i < n` of `a`, in `2W-1` bits. -/
def clmulBelow {w : Nat} (a b : GF2Poly w) : Nat → BitVec (2 * w - 1)
  | 0 => 0#(2 * w - 1)
  | n + 1 =>
    clmulBelow a b n ^^^ (if a.getLsbD n then (b.setWidth (2 * w - 1)) <<< n else 0#(2 * w - 1))

/-- `full`: the mathematical carry-less product, `2W-1` bits wide (R142). -/
def clmulFull {w : Nat} (a b : GF2Poly w) : BitVec (2 * w - 1) := clmulBelow a b w

/-- `res = full[W-1:0]` (R142). -/
def clmul {w : Nat} (a b : GF2Poly w) : GF2Poly w := (clmulFull a b).setWidth w

/-- `ovf`: whether `full[2W-2:W]` is nonzero (R142). -/
def clmulOvf {w : Nat} (a b : GF2Poly w) : Bool := decide (clmulFull a b >>> w ≠ 0#(2 * w - 1))

/-- The loop of R146 with a bound on its iterations: while `r` is nonzero and its degree is at least that of `b`, take
`b` shifted up to `r`'s top bit away from `r`. -/
def remLoop {w : Nat} (b : GF2Poly w) : Nat → GF2Poly w → GF2Poly w
  | 0, r => r
  | n + 1, r =>
    if r ≠ 0#w ∧ deg b ≤ deg r then remLoop b n (r ^^^ shl b (deg r - deg b)) else r

/-- The remainder of `a` by `b`, for `deg(b) >= 1`. R148 bounds the loop by `W - 1` iterations, so `W` are enough
(DEDUCED, log 7). -/
def polyRem {w : Nat} (a b : GF2Poly w) : GF2Poly w := remLoop b w a

end Sys2Proof.Machine
end

