-- ==== Sys2Proof/Machine/State.lean ====
section
/-! DEFINITION. The state of the machine as plain data: the block's registers, FIFO and engine (10_state.md), and around
it the agents outside the block (20_memory.md R60). `Block` is the hardware; `Env` holds the interleaving still to come
and what the host and the consumer have seen, and is no part of the block (DESIGN CHOICE, logs 2 and 8). -/

namespace Sys2Proof.Machine

/-- The two states of the engine (R40). -/
inductive EngState where
  | idle
  | run
deriving DecidableEq, Repr

/-- The hidden state of the engine (R40). -/
structure Engine (P : Params) where
  /-- Whether a command is in progress. -/
  state : EngState
  /-- The latched command word. -/
  cw : P.Word
  /-- Latched operand A. -/
  a : P.Word
  /-- Latched operand B. -/
  b : P.Word
  /-- How many elements the current ENUM has appended to `outq`. -/
  j : Nat
deriving DecidableEq, Repr

/-- The block: the stored registers of R20, the output FIFO of R33 and the engine of R40. ID (R32) and the reserved
indices (R20) store nothing. -/
structure Block (P : Params) where
  cmd : P.Word
  status : P.Word
  opa : P.Word
  opb : P.Word
  result : P.Word
  order : P.Word
  /-- The output FIFO, its head first. -/
  outq : List P.Word
  eng : Engine P
deriving DecidableEq, Repr

/-- One step of one agent (R60): the host's two actions (R61, R62), the engine's step (R103, R104), the consumer's
`Take` (R66) and the reset event (R230). -/
inductive Turn (P : Params) where
  | hostRead (idx : RegIndex)
  | hostWrite (idx : RegIndex) (v : P.Word)
  | engine
  | take
  | reset
deriving DecidableEq, Repr

/-- The agents outside the block. -/
structure Env (P : Params) where
  /-- The turns still to come, the next one first: one interleaving of R60 (DESIGN CHOICE, log 2). -/
  turns : List (Turn P)
  /-- What each HostRead has returned, oldest first (R61; DESIGN CHOICE, log 8). -/
  reads : List (RegIndex × P.Word)
  /-- The consumer's observed sequence, oldest first (R66, R231; log 8). -/
  taken : List P.Word
deriving DecidableEq, Repr

/-- The machine: the parameters of one block (R5, R6; log 1), the block, and the agents around it. -/
structure State where
  params : Params
  block : Block params
  env : Env params
deriving DecidableEq, Repr

/-- A step of this machine never faults: the block has no traps and no access faults (R203, R206; DEDUCED, log 16, and
safe, since no behaviour is left out). So the type has no constructor and nobody raises one. -/
inductive Fault where
deriving DecidableEq, Repr

/-- Why a step has no meaning in this model. -/
inductive Refusal where
  /-- Raised by an arm of `exec` whose command has no meaning yet. No arm raises it. It is safe: the machine stops. -/
  | notModelled (mnemonic : String)
deriving DecidableEq, Repr

/-- The engine after reset (R40, R230). -/
def Engine.reset (P : Params) : Engine P :=
  { state := .idle, cw := 0#P.W, a := 0#P.W, b := 0#P.W, j := 0 }

/-- The block after reset (R43, R230). -/
def Block.reset (P : Params) : Block P :=
  { cmd := 0#P.W, status := 0#P.W, opa := 0#P.W, opb := 0#P.W, result := 0#P.W, order := 0#P.W, outq := [],
    eng := Engine.reset P }

/-- No turn is scheduled and nobody has seen anything (DESIGN CHOICE, logs 2 and 8). -/
def Env.empty (P : Params) : Env P :=
  { turns := [], reads := [], taken := [] }

/-- The machine right after reset (R43, R230; the launch premise of R233, log 9), with the default parameters of R5 and
R6 (log 1). -/
def State.reset : State :=
  { params := Params.default, block := Block.reset Params.default, env := Env.empty Params.default }

end Sys2Proof.Machine
end

