-- ==== Sys2Proof/Machine/Record.lean ====
section
/-! DEFINITION. The outcome of a command, R101's record, and the error codes of 60_exceptions.md R200 as a closed set. -/

namespace Sys2Proof.Machine

/-- The error codes a command can report (R200). The reserved codes 5 to 15 have no constructor, since the block never
produces them (R200, D33). -/
inductive ErrCode where
  | none
  | illegalCommand
  | invalidDivisor
  | invalidModulus
  | orderNotFound
deriving DecidableEq, Repr

/-- The record of R101. `E` is held as its length and its elements by position, since R109 lets each be computed from
`j` alone and `E` can have `2^(W-1)` of them (DEDUCED, log 6). -/
structure CommandOutcome (w : Nat) where
  /-- `|E|`, the number of elements to emit. -/
  len : Nat
  /-- `E[j]`, for `j < len`. -/
  elem : Nat → GF2Poly w
  /-- The value for RESULT; `none` is R101's `keep`. -/
  res : Option (GF2Poly w)
  /-- The value for ORDER; `none` is R101's `keep`. -/
  ord : Option (GF2Poly w)
  /-- The code for STATUS.ERR. -/
  err : ErrCode
  /-- The bit for STATUS.OVF. -/
  ovf : Bool

/-- `E` as a list (R101). -/
def CommandOutcome.emits {w : Nat} (r : CommandOutcome w) : List (GF2Poly w) :=
  (List.range r.len).map r.elem

/-- A record with an empty `E` (R101: every command except ENUM). -/
def CommandOutcome.quiet {w : Nat} (res ord : Option (GF2Poly w)) (err : ErrCode) (ovf : Bool) : CommandOutcome w :=
  { len := 0, elem := fun _ => 0#w, res := res, ord := ord, err := err, ovf := ovf }

end Sys2Proof.Machine
end

