-- ==== Sys2Proof/Machine/Flags.lean ====
section
/-! DEFINITION. STATUS (10_state.md R24): its fields read from the word and written into the word, and the values the
flags take (R27, R28, R200). STATUS is one register that the host reads whole (R20), so it stays one word. -/

namespace Sys2Proof.Machine

/-- BUSY, bit 0 (R24, R25). -/
def statusBusy {w : Nat} (st : GF2Poly w) : Bool := st.getLsbD 0

/-- DONE, bit 1 (R24, R26). -/
def statusDone {w : Nat} (st : GF2Poly w) : Bool := st.getLsbD 1

/-- OVF, bit 2 (R24, R27). -/
def statusOvf {w : Nat} (st : GF2Poly w) : Bool := st.getLsbD 2

/-- AZERO, bit 3 (R24, R28). -/
def statusAzero {w : Nat} (st : GF2Poly w) : Bool := st.getLsbD 3

/-- ERR, bits 7:4 (R24, R200). -/
def statusErr {w : Nat} (st : GF2Poly w) : BitVec 4 := st.extractLsb' 4 4

/-- REJ, bit 8 (R24, R29). -/
def statusRej {w : Nat} (st : GF2Poly w) : Bool := st.getLsbD 8

/-- The reserved bits W-1:9, moved down to bit 0 (R24). -/
def statusReserved {w : Nat} (st : GF2Poly w) : GF2Poly w := st >>> 9

/-- The word `st` with bit `k` set to `v` and every other bit kept. -/
def setBit {w : Nat} (st : GF2Poly w) (k : Nat) (v : Bool) : GF2Poly w :=
  if v then st ||| BitVec.twoPow w k else st &&& ~~~(BitVec.twoPow w k)

/-- BUSY written (R25). -/
def setBusy {w : Nat} (st : GF2Poly w) (v : Bool) : GF2Poly w := setBit st 0 v

/-- DONE written (R26). -/
def setDone {w : Nat} (st : GF2Poly w) (v : Bool) : GF2Poly w := setBit st 1 v

/-- OVF written (R27). -/
def setOvf {w : Nat} (st : GF2Poly w) (v : Bool) : GF2Poly w := setBit st 2 v

/-- AZERO written (R28). -/
def setAzero {w : Nat} (st : GF2Poly w) (v : Bool) : GF2Poly w := setBit st 3 v

/-- REJ written (R29). -/
def setRej {w : Nat} (st : GF2Poly w) (v : Bool) : GF2Poly w := setBit st 8 v

/-- ERR written: bits 7:4 replaced and every other bit kept (R200). -/
def setErr {w : Nat} (st : GF2Poly w) (e : BitVec 4) : GF2Poly w :=
  (st &&& ~~~((0xF#4).setWidth w <<< 4)) ||| (e.setWidth w <<< 4)

/-- The number of an error code (R200). -/
def errNumber : ErrCode → BitVec 4
  | .none => 0#4
  | .illegalCommand => 1#4
  | .invalidDivisor => 2#4
  | .invalidModulus => 3#4
  | .orderNotFound => 4#4

/-- AZERO's value at completion: latched operand A is the zero polynomial (R28, R104). -/
def azeroFlag {w : Nat} (a : GF2Poly w) : Bool := decide (a = 0#w)

/-- CLRREJ, bit 8 of a word written to STATUS (R85). -/
def clrRej {w : Nat} (v : GF2Poly w) : Bool := v.getLsbD 8

/-- STATUS after an accepted CMD write: BUSY set and DONE cleared, the rest kept (R100). -/
def statusAccepted {w : Nat} (st : GF2Poly w) : GF2Poly w :=
  setDone (setBusy st true) false

/-- STATUS after a rejected CMD write: REJ set, the rest kept (R102). -/
def statusRejected {w : Nat} (st : GF2Poly w) : GF2Poly w :=
  setRej st true

/-- STATUS after a host write of `v` to it: REJ cleared when CLRREJ is 1, and nothing else (R29, R62). -/
def statusHostWrite {w : Nat} (st v : GF2Poly w) : GF2Poly w :=
  if clrRej v then setRej st false else st

/-- STATUS after a completion: ERR, OVF, AZERO, BUSY and DONE written, REJ and the reserved bits kept (R104). -/
def statusCompleted {w : Nat} (st a : GF2Poly w) (err : ErrCode) (ovf : Bool) : GF2Poly w :=
  setDone (setBusy (setAzero (setOvf (setErr st (errNumber err)) ovf) (azeroFlag a)) false) true

end Sys2Proof.Machine
end

