-- ==== Sys2Proof/Machine/Operands.lean ====
section
/-! DEFINITION. The operands of a command. There is one operand form: the copies latched at acceptance (30_encoding.md
R81), `eng.a` and `eng.b`. A one-operand command reads `eng.a` alone. -/

namespace Sys2Proof.Machine

/-- `a = eng.a`, and `p = eng.a` of ISPRIM and ENUM (R81). -/
def State.operandA (s : State) : s.params.Word := s.block.eng.a

/-- `b = eng.b` (R81). -/
def State.operandB (s : State) : s.params.Word := s.block.eng.b

end Sys2Proof.Machine
end

