-- ==== Sys2Proof/Machine/Ops.lean ====
section
/-! DEFINITION. The named operations on the block: the register interface (20_memory.md R61, R62), acceptance and
rejection of a command (40_command_lifecycle.md R100, R102), the engine's two steps (R103, R104), the stream port (R66)
and reset (R230). The block takes no exceptions (60_exceptions.md R203): an error is a code that `Block.complete`
writes. -/

namespace Sys2Proof.Machine

/-- The registers by name (R20). -/
inductive Reg where
  | cmd
  | status
  | opa
  | opb
  | result
  | order
  | id
  | reserved
deriving DecidableEq, Repr

/-- The register at an index (R20). -/
def regAt (idx : RegIndex) : Reg :=
  match idx.toNat with
  | 0x0 => .cmd
  | 0x1 => .status
  | 0x2 => .opa
  | 0x3 => .opb
  | 0x4 => .result
  | 0x5 => .order
  | 0x6 => .id
  | _ => .reserved

/-- ID: `W` in bits 7:0, `OUT_DEPTH` in bits 15:8, the rest 0 (R32). -/
def idWord (P : Params) : P.Word :=
  (BitVec.ofNat 8 P.W).setWidth P.W ||| (BitVec.ofNat 8 P.OUT_DEPTH).setWidth P.W <<< 8

variable {P : Params}

/-- `HostRead(idx)`: the register's value, and 0 at a reserved index (R61). -/
def Block.hostRead (b : Block P) (idx : RegIndex) : P.Word :=
  match regAt idx with
  | .cmd => b.cmd
  | .status => b.status
  | .opa => b.opa
  | .opb => b.opb
  | .result => b.result
  | .order => b.order
  | .id => idWord P
  | .reserved => 0#P.W

/-- `accept(v)` (R100). -/
def Block.accept (b : Block P) (v : P.Word) : Block P :=
  { b with
    cmd := v
    status := statusAccepted b.status
    eng := { state := .run, cw := v, a := b.opa, b := b.opb, j := 0 } }

/-- `reject(v)`: `v` is discarded and REJ is set (R102). -/
def Block.reject (b : Block P) (_v : P.Word) : Block P :=
  { b with status := statusRejected b.status }

/-- A host write to CMD: accepted while IDLE, rejected while RUN (R62). -/
def Block.writeCmd (b : Block P) (v : P.Word) : Block P :=
  match b.eng.state with
  | .idle => b.accept v
  | .run => b.reject v

/-- `HostWrite(idx, v)` (R62). -/
def Block.hostWrite (b : Block P) (idx : RegIndex) (v : P.Word) : Block P :=
  match regAt idx with
  | .cmd => b.writeCmd v
  | .status => { b with status := statusHostWrite b.status v }
  | .opa => { b with opa := v }
  | .opb => { b with opb := v }
  | .result => b
  | .order => b
  | .id => b
  | .reserved => b

/-- Whether the emit step of the command with outcome `r` is enabled (R103). -/
def Block.emitEnabled (b : Block P) (r : CommandOutcome P.W) : Bool :=
  decide (b.eng.state = .run) && decide (b.eng.j < r.len) && decide (b.outq.length < P.OUT_DEPTH)

/-- `emit(v)` and the count of it (R66, R103). -/
def Block.emit (b : Block P) (v : P.Word) : Block P :=
  { b with outq := b.outq ++ [v], eng := { b.eng with j := b.eng.j + 1 } }

/-- Whether the completion step of the command with outcome `r` is enabled (R104). -/
def Block.completeEnabled (b : Block P) (r : CommandOutcome P.W) : Bool :=
  decide (b.eng.state = .run) && decide (b.eng.j = r.len)

/-- The completion step: every result in one step (R104). -/
def Block.complete (b : Block P) (r : CommandOutcome P.W) : Block P :=
  { b with
    result := r.res.getD b.result
    order := r.ord.getD b.order
    status := statusCompleted b.status b.eng.a r.err r.ovf
    eng := { b.eng with state := .idle } }

/-- One turn of the engine for a command with outcome `r`: its emit step or its completion step, whichever is enabled.
Where neither is, while IDLE (R108) or while `outq` is full (R103), the engine has no step and nothing changes. -/
def Block.engineStep (b : Block P) (r : CommandOutcome P.W) : Block P :=
  if b.emitEnabled r then b.emit (r.elem b.eng.j)
  else if b.completeEnabled r then b.complete r
  else b

/-- `out_valid` of the stream port (R66). -/
def Block.outValid (b : Block P) : Bool := !b.outq.isEmpty

/-- `out_data` of the stream port, while `out_valid` (R66). -/
def Block.outData (b : Block P) : Option P.Word := b.outq.head?

/-- The engine's turn for a command with outcome `r`, on the whole machine. -/
def State.runCommand (s : State) (r : CommandOutcome s.params.W) : State :=
  { s with block := s.block.engineStep r }

/-- The host reads a register: the block is unchanged, and the host has the value (R61). -/
def State.hostReadStep (s : State) (idx : RegIndex) : State :=
  { s with env := { s.env with reads := s.env.reads ++ [(idx, s.block.hostRead idx)] } }

/-- The host writes a register (R62). -/
def State.hostWriteStep (s : State) (idx : RegIndex) (v : s.params.Word) : State :=
  { s with block := s.block.hostWrite idx v }

/-- `Take`: the head of `outq` goes to the end of the consumer's observed sequence (R66). With `outq` empty the step is
not enabled and nothing changes (log 3). -/
def State.takeStep (s : State) : State :=
  match s.block.outq with
  | [] => s
  | v :: rest =>
    { s with
      block := { s.block with outq := rest }
      env := { s.env with taken := s.env.taken ++ [v] } }

/-- Reset: the block takes its reset values; what the host and the consumer have seen stays seen (R230, R231). -/
def State.resetStep (s : State) : State :=
  { s with block := Block.reset s.params }

/-- The turns still to come, replaced. -/
def State.withTurns (s : State) (ts : List (Turn s.params)) : State :=
  { s with env := { s.env with turns := ts } }

/-- The machine with the command word `v` just accepted and the engine's turn next: what `withFetchWord` needs (log 5). -/
def State.loadCommand (s : State) (v : s.params.Word) : State :=
  { s with
    block := s.block.accept v
    env := { s.env with turns := .engine :: s.env.turns } }

end Sys2Proof.Machine
end

