-- ==== Sys2Proof/Machine/Arithmetic.lean ====
section
/-! DEFINITION. ADD, MUL and REM (42_arithmetic.md R140, R142, R146). -/

namespace Sys2Proof.Machine

/-- ADD's outcome (R140). -/
def outcomeAdd {w : Nat} (a b : GF2Poly w) : CommandOutcome w :=
  .quiet (some (a ^^^ b)) none .none false

/-- MUL's outcome (R142). -/
def outcomeMul {w : Nat} (a b : GF2Poly w) : CommandOutcome w :=
  .quiet (some (clmul a b)) none .none (clmulOvf a b)

/-- REM's outcome (R146). -/
def outcomeRem {w : Nat} (a b : GF2Poly w) : CommandOutcome w :=
  if deg b < 1 then .quiet none none .invalidDivisor false
  else .quiet (some (polyRem a b)) none .none false

/-- ADD: one turn of the engine running it (R140). -/
def execAdd (s : State) : Host.Outcome State Fault Refusal :=
  .next (s.runCommand (outcomeAdd s.operandA s.operandB))

/-- MUL: one turn of the engine running it (R142). -/
def execMul (s : State) : Host.Outcome State Fault Refusal :=
  .next (s.runCommand (outcomeMul s.operandA s.operandB))

/-- REM: one turn of the engine running it (R146). -/
def execRem (s : State) : Host.Outcome State Fault Refusal :=
  .next (s.runCommand (outcomeRem s.operandA s.operandB))

end Sys2Proof.Machine
end

