-- ==== Sys2Proof/Machine/Lifecycle.lean ====
section
/-! DEFINITION. NOP and the illegal command word (40_command_lifecycle.md R106, R107). -/

namespace Sys2Proof.Machine

/-- NOP's outcome (R106). -/
def outcomeNop (w : Nat) : CommandOutcome w := .quiet none none .none false

/-- The outcome of an illegal command word (R107). -/
def outcomeIllegal (w : Nat) : CommandOutcome w := .quiet none none .illegalCommand false

/-- NOP: one turn of the engine running it (R106). -/
def execNop (s : State) : Host.Outcome State Fault Refusal :=
  .next (s.runCommand (outcomeNop s.params.W))

/-- An illegal command word: one turn of the engine running it (R107). -/
def execIllegal (s : State) : Host.Outcome State Fault Refusal :=
  .next (s.runCommand (outcomeIllegal s.params.W))

end Sys2Proof.Machine
end

