-- ==== Sys2Proof/Machine/OrderEngine.lean ====
section
/-! DEFINITION. The multiplicative-order engine of 43_order_engine.md: the step, the power sequence, the bounded order
search and the element sequence of an enumeration. -/

namespace Sys2Proof.Machine

/-- `xstep(c, p)`: multiply by `x`, then reduce modulo `p` (R160). -/
def xstep {w : Nat} (c p : GF2Poly w) : GF2Poly w :=
  if (shl c 1).getLsbD (deg p) then shl c 1 ^^^ p else shl c 1

/-- `P(n)` of R161, from `P(1) = x`. R161 gives no `P(0)`; the value here is 1 and no command reads it (DESIGN CHOICE,
log 19). -/
def power {w : Nat} (p : GF2Poly w) : Nat → GF2Poly w
  | 0 => 1#w
  | 1 => polyX w
  | n + 2 => xstep (power p (n + 1)) p

/-- The bound of the order search, `2^deg(p) - 1` (R162). -/
def groupOrder {w : Nat} (p : GF2Poly w) : Nat := 2 ^ deg p - 1

/-- The loop of R162 from `cur` and `n`, with a bound on its passes. -/
def ordLoop {w : Nat} (p : GF2Poly w) : Nat → GF2Poly w → Nat → Option Nat
  | 0, _, _ => none
  | f + 1, cur, n =>
    if cur = 1#w then some n
    else if n = groupOrder p then none
    else ordLoop p f (xstep cur p) (n + 1)

/-- `ORD(p)` of R162, for `deg(p) >= 2`. `n` runs from 1 to `2^d - 1`, so `2^d - 1` passes are enough (DEDUCED, log 7). -/
def ordSearch {w : Nat} (p : GF2Poly w) : Option Nat := ordLoop p (groupOrder p) (polyX w) 1

/-- The length `L` of `Elems(p)` for what the search found (R170). -/
def elemCount {w : Nat} (p : GF2Poly w) : Option Nat → Nat
  | some k => k + 1
  | none => 2 ^ deg p

/-- `Elems(p)[j]` (R170). -/
def elemAt {w : Nat} (p : GF2Poly w) (j : Nat) : GF2Poly w :=
  match j with
  | 0 => 0#w
  | 1 => 1#w
  | n + 2 => power p (n + 1)

end Sys2Proof.Machine
end

