-- ==== Sys2Proof/Machine/Order.lean ====
section
/-! DEFINITION. ISPRIM and ENUM (43_order_engine.md R163, R171). -/

namespace Sys2Proof.Machine

/-- ISPRIM's outcome (R163). -/
def outcomeIsprim {w : Nat} (p : GF2Poly w) : CommandOutcome w :=
  if deg p < 2 then .quiet (some 0#w) (some 0#w) .none false
  else
    match ordSearch p with
    | some k =>
      .quiet (some (if k = 2 ^ deg p - 1 then 1#w else 0#w)) (some (BitVec.ofNat w k)) .none false
    | none => .quiet (some 0#w) (some 0#w) .orderNotFound false

/-- ENUM's outcome (R171). -/
def outcomeEnum {w : Nat} (p : GF2Poly w) : CommandOutcome w :=
  if deg p < 2 then .quiet none none .invalidModulus false
  else
    match ordSearch p with
    | some k =>
      { len := elemCount p (some k), elem := elemAt p, res := some (BitVec.ofNat w (k + 1)),
        ord := some (BitVec.ofNat w k), err := .none, ovf := false }
    | none =>
      { len := elemCount p none, elem := elemAt p, res := some (BitVec.ofNat w (2 ^ deg p)),
        ord := some 0#w, err := .orderNotFound, ovf := false }

/-- ISPRIM: one turn of the engine running it (R163). -/
def execIsprim (s : State) : Host.Outcome State Fault Refusal :=
  .next (s.runCommand (outcomeIsprim s.operandA))

/-- ENUM: one turn of the engine running it, the next emit step or the completion (R171). -/
def execEnum (s : State) : Host.Outcome State Fault Refusal :=
  .next (s.runCommand (outcomeEnum s.operandA))

end Sys2Proof.Machine
end

