-- ==== Sys2Proof/Machine/Representation.lean ====
section
/-! DEFINITION. DEG (41_representation.md R125). -/

namespace Sys2Proof.Machine

/-- DEG's outcome (R125). -/
def outcomeDeg {w : Nat} (a : GF2Poly w) : CommandOutcome w :=
  .quiet (some (BitVec.ofNat w (deg a))) none .none false

/-- DEG: one turn of the engine running it (R125). -/
def execDeg (s : State) : Host.Outcome State Fault Refusal :=
  .next (s.runCommand (outcomeDeg s.operandA))

end Sys2Proof.Machine
end

