-- ==== Sys2Proof/Machine/Dispatch.lean ====
section
/-! DEFINITION. The dispatch of a running command to its meaning: one turn of the engine (R103, R104) for the command
the latched word decodes to. -/

namespace Sys2Proof.Machine

def exec (i : Instr) (s : State) : Host.Outcome State Fault Refusal :=
  match i with
  | .nop => Sys2Proof.Machine.execNop s
  | .add => Sys2Proof.Machine.execAdd s
  | .mul => Sys2Proof.Machine.execMul s
  | .rem => Sys2Proof.Machine.execRem s
  | .isprim => Sys2Proof.Machine.execIsprim s
  | .enum => Sys2Proof.Machine.execEnum s
  | .deg => Sys2Proof.Machine.execDeg s

end Sys2Proof.Machine
end

