-- ==== Sys2Proof/Machine/Turns.lean ====
section
/-! DEFINITION. One turn of one agent (20_memory.md R60). The next turn is the head of `env.turns`; with the list empty
nobody outside the block moves and the turn is the engine's (DESIGN CHOICE, log 2). -/

namespace Sys2Proof.Machine

/-- The engine's turn: while RUN, the latched word is decoded and its command takes its next step, an illegal word by
R107; while IDLE the engine has no step (R108). -/
def engineTurn (s : State) : Host.Outcome State Fault Refusal :=
  match s.block.eng.state with
  | .idle => .next s
  | .run =>
    match decode s.block.eng.cw with
    | .legal i => exec i s
    | .illegal _ => execIllegal s

/-- The next turn, taken off the list and done (R60). -/
def takeTurn (s : State) : Host.Outcome State Fault Refusal :=
  match s.env.turns with
  | [] => engineTurn s
  | .engine :: ts => engineTurn (s.withTurns ts)
  | .hostRead idx :: ts => .next ((s.withTurns ts).hostReadStep idx)
  | .hostWrite idx v :: ts => .next ((s.withTurns ts).hostWriteStep idx v)
  | .take :: ts => .next ((s.withTurns ts).takeStep)
  | .reset :: ts => .next ((s.withTurns ts).resetStep)

end Sys2Proof.Machine
end

