-- ==== Sys2Proof/Machine/Step.lean ====
section
/-! DEFINITION. The step of the machine, and the host's way to place a command word where the next step runs it. -/

namespace Sys2Proof.Machine

/-- One step of one agent, the next in the interleaving `env.turns` (R60). -/
def step (s : State) : Host.Outcome State Fault Refusal :=
  takeTurn s

/-- The machine with the word `w` (its low `nbits` bits) accepted as a command (R100) and the engine's turn next, so that
the very next step runs it. The block fetches nothing (R70): what the engine runs is the word a CMD write latched, and
this stands for that write (log 5). -/
def State.withFetchWord (s : State) (nbits w : Nat) : State :=
  s.loadCommand (BitVec.ofNat s.params.W (w % 2 ^ nbits))

end Sys2Proof.Machine
end

