-- ==== Sys2Proof/Machine/Instances.lean ====
section
/-! DEFINITION. Several instances of the block side by side (10_state.md R41, 60_exceptions.md R208): each has a state of
its own and a step of one touches no other. -/

namespace Sys2Proof.Machine

/-- One step of instance `n` of a list of machines; an index past the list names no instance and nothing moves. -/
def stepInstance (n : Nat) (ms : List State) : Host.Outcome (List State) Fault Refusal :=
  match ms[n]? with
  | none => .next ms
  | some s =>
    match step s with
    | .next t => .next (ms.set n t)
    | .fault r => .fault r
    | .refused r => .refused r

end Sys2Proof.Machine
end

