-- ==== Sys2Proof/Machine/Outcome.lean ====
section
/-! DEFINITION. `outcome(cw, a, b)` of 40_command_lifecycle.md R101: what a command does as one pure function of the
latched word and operands. The step does not call it (the engine's turn runs `exec`); the invariants of Safety.lean and
the statements name it. -/

namespace Sys2Proof.Machine

/-- The outcome of a legal command on operands `a` and `b` (R101). -/
def outcomeOf {w : Nat} (i : Instr) (a b : GF2Poly w) : CommandOutcome w :=
  match i with
  | .nop => outcomeNop w
  | .add => outcomeAdd a b
  | .mul => outcomeMul a b
  | .rem => outcomeRem a b
  | .isprim => outcomeIsprim a
  | .enum => outcomeEnum a
  | .deg => outcomeDeg a

/-- `outcome(cw, a, b)`, the illegal words included (R101, R107). -/
def outcome {w : Nat} (cw a b : GF2Poly w) : CommandOutcome w :=
  match decode cw with
  | .legal i => outcomeOf i a b
  | .illegal _ => outcomeIllegal w

/-- The outcome of the command the engine has latched. -/
def Block.outcome {P : Params} (b : Block P) : CommandOutcome P.W :=
  Sys2Proof.Machine.outcome b.eng.cw b.eng.a b.eng.b

end Sys2Proof.Machine
end

