-- ==== Sys2Proof/Safety.lean ====
section
/-! DEFINITION. The terms the statements use: what a completed command leaves, the invariants of a safe block, and the
algebra of polynomials over GF(2) that the derived rules speak of, written apart from the algorithms of Machine/. -/

namespace Sys2Proof.Machine

variable {P : Params}

/-- `b'` is `b` after a completion step that writes these values: everything R104 writes, and everything it leaves. -/
structure Completed (b b' : Block P) (res ord : P.Word) (err : BitVec 4) (ovf : Bool) : Prop where
  result : b'.result = res
  order : b'.order = ord
  err : statusErr b'.status = err
  ovf : statusOvf b'.status = ovf
  azero : statusAzero b'.status = decide (b.eng.a = 0#P.W)
  busy : statusBusy b'.status = false
  done : statusDone b'.status = true
  rej : statusRej b'.status = statusRej b.status
  reserved : statusReserved b'.status = statusReserved b.status
  cmd : b'.cmd = b.cmd
  opa : b'.opa = b.opa
  opb : b'.opb = b.opb
  outq : b'.outq = b.outq
  eng : b'.eng = { b.eng with state := .idle }

/-- STATUS as the rules describe it in every state: BUSY is 1 exactly while the engine is in RUN (R25), BUSY and DONE are
never both 1 (R26), the reserved bits read 0 (R24), ERR is one of the codes 0 to 4 (R200), and OVF comes with no error
(R202). -/
structure Block.StatusInv (b : Block P) : Prop where
  busy_iff_run : statusBusy b.status = true ↔ b.eng.state = .run
  not_busy_and_done : ¬(statusBusy b.status = true ∧ statusDone b.status = true)
  reserved_zero : statusReserved b.status = 0#P.W
  err_assigned : (statusErr b.status).toNat ≤ 4
  ovf_without_err : statusOvf b.status = true → statusErr b.status = 0#4

/-- The engine and its FIFO: the FIFO holds at most `OUT_DEPTH` entries (R33), CMD is the word the engine latched (R23,
R100), and a running command has emitted no more than its `E` holds (R103, R104). -/
structure Block.EngineInv (b : Block P) : Prop where
  outq_fits : b.outq.length ≤ P.OUT_DEPTH
  cmd_is_latched : b.cmd = b.eng.cw
  emitted_bounded : b.eng.state = .run → b.eng.j ≤ b.outcome.len

/-- What the host reads once BUSY = 0 and DONE = 1 belongs to the last accepted command, whole (R203, R240): each value
is that of its outcome, for RESULT and ORDER where the outcome writes them, and all of `E` has been emitted (R68). -/
structure Block.ResultsInv (b : Block P) : Prop where
  err : b.eng.state = .idle → statusDone b.status = true → statusErr b.status = errNumber b.outcome.err
  ovf : b.eng.state = .idle → statusDone b.status = true → statusOvf b.status = b.outcome.ovf
  azero : b.eng.state = .idle → statusDone b.status = true → statusAzero b.status = decide (b.eng.a = 0#P.W)
  result : b.eng.state = .idle → statusDone b.status = true → ∀ v ∈ b.outcome.res, b.result = v
  order : b.eng.state = .idle → statusDone b.status = true → ∀ v ∈ b.outcome.ord, b.order = v
  emitted : b.eng.state = .idle → statusDone b.status = true → b.eng.j = b.outcome.len

/-- BUSY = 0 with DONE = 0 happens only after reset, before any command (R26): then everything but the operand registers
is at its reset value. -/
def Block.FreshInv (b : Block P) : Prop :=
  b.eng.state = .idle → statusDone b.status = false →
    b = { Block.reset P with opa := b.opa, opb := b.opb }

/-- ORDER is at most `2^(W-1) - 1` (R31). -/
def Block.OrderInv (b : Block P) : Prop := b.order.toNat ≤ 2 ^ (P.W - 1) - 1

/-- The next turn is the engine's: it heads the list, or the list is empty (log 2). -/
def Env.engineNext (e : Env P) : Prop := e.turns = [] ∨ e.turns.head? = some .engine

/-- The agents after the next turn is taken off the list. -/
def Env.afterTurn (e : Env P) : Env P := { e with turns := e.turns.tail }

/-- A schedule in which the consumer takes each element as soon as it is emitted, and the engine then completes. -/
def drainSchedule (P : Params) : Nat → List (Turn P)
  | 0 => [.engine]
  | n + 1 => .engine :: .take :: drainSchedule P n

/-- A turn that neither takes from the FIFO, nor writes, nor resets: the engine's or a host read (R243). -/
def Turn.isPoll : Turn P → Bool
  | .engine => true
  | .hostRead _ => true
  | .hostWrite _ _ => false
  | .take => false
  | .reset => false

/-- `full` as R142 writes it: the exclusive OR over all `i` in `0..w-1` with `a[i] = 1` of `b * 2^i`. -/
def fullProduct {w : Nat} (a b : GF2Poly w) : BitVec (2 * w - 1) :=
  ((List.range w).filter fun i => a.getLsbD i).foldl
    (fun acc i => acc ^^^ (b.setWidth (2 * w - 1)) <<< i) 0#(2 * w - 1)

/-- The schoolbook sum of truncated shifts of R143. -/
def schoolbookSum {w : Nat} (a b : GF2Poly w) : GF2Poly w :=
  ((List.range w).filter fun i => a.getLsbD i).foldl (fun acc i => acc ^^^ shl b i) 0#w

/-- `r` is a remainder of `a` by `b` as R147 says: `a = q·b ^ r` for some `q`, and `r = 0` or `deg(r) < deg(b)`. -/
def IsRemainder {w : Nat} (a b r : GF2Poly w) : Prop :=
  (∃ q : GF2Poly w, a.setWidth (2 * w - 1) = fullProduct q b ^^^ r.setWidth (2 * w - 1)) ∧
    (r = 0#w ∨ deg r < deg b)

/-- `p` is irreducible: of degree at least 1, and in any product equal to it one factor is a constant. -/
def polyIrreducible {w : Nat} (p : GF2Poly w) : Prop :=
  1 ≤ deg p ∧ ∀ a b : GF2Poly w, fullProduct a b = p.setWidth (2 * w - 1) → deg a = 0 ∨ deg b = 0

/-- `p` is primitive, of degree at least 2: irreducible, and its root `x` generates the whole multiplicative group, every
nonzero residue (the glossary of R11; degree 1 is left out, log 18). -/
def polyPrimitive {w : Nat} (p : GF2Poly w) : Prop :=
  2 ≤ deg p ∧ polyIrreducible p ∧
    ∀ c : GF2Poly w, c ≠ 0#w → deg c < deg p → ∃ n, 1 ≤ n ∧ power p n = c

end Sys2Proof.Machine
end

