-- ==== Sys2Proof/Certificates/Slice0/Obligations.lean ====
section
/-! DEFINITION. The statements for the provers. Each holds for every legal width `W` and depth `OUT_DEPTH`, since the
parameters `P` are quantified in each (R5, R6; log 1), and for every state, whether a run reaches it or not, unless an
invariant of Safety.lean stands as a premise. -/

open Sys2Proof Sys2Proof.Machine

/-! ## Reset and the register interface -/

/-- R43: every register, hidden field and the FIFO after reset. ID reads `W + 2^8 * OUT_DEPTH` (R32). -/
def Obligations.ResetPutsEveryPieceOfStateAtItsValue : Prop :=
  ∀ P : Params,
    (∀ idx : RegIndex, idx ≠ 0x6#4 → (Block.reset P).hostRead idx = 0#P.W) ∧
    ((Block.reset P).hostRead 0x6#4).toNat = P.W + 2 ^ 8 * P.OUT_DEPTH ∧
    (Block.reset P).eng.state = .idle ∧ (Block.reset P).eng.cw = 0#P.W ∧
    (Block.reset P).eng.a = 0#P.W ∧ (Block.reset P).eng.b = 0#P.W ∧ (Block.reset P).eng.j = 0 ∧
    (Block.reset P).outq = [] ∧ State.reset.block = Block.reset Params.default

/-- R230, R231: the reset event from any state. What the consumer has taken stays taken. -/
def Obligations.ResetEventReplacesTheBlock : Prop :=
  ∀ (P : Params) (b : Block P) (e : Env P) (ts : List (Turn P)),
    step ⟨P, b, { e with turns := .reset :: ts }⟩ =
      .next ⟨P,
        { cmd := 0#P.W, status := 0#P.W, opa := 0#P.W, opb := 0#P.W, result := 0#P.W, order := 0#P.W, outq := [],
          eng := { state := .idle, cw := 0#P.W, a := 0#P.W, b := 0#P.W, j := 0 } },
        { e with turns := ts }⟩

/-- R32: the fields of ID, in every state, and a write to it. -/
def Obligations.IdReadsTheParameters : Prop :=
  ∀ (P : Params) (b : Block P) (v : P.Word),
    ((b.hostRead 0x6#4).extractLsb' 0 8).toNat = P.W ∧
    ((b.hostRead 0x6#4).extractLsb' 8 8).toNat = P.OUT_DEPTH ∧
    b.hostRead 0x6#4 >>> 16 = 0#P.W ∧
    b.hostWrite 0x6#4 v = b

/-- R61: what each index reads as, and that a read changes nothing in the block. -/
def Obligations.HostReadReturnsTheRegisterAndChangesNothing : Prop :=
  ∀ (P : Params) (b : Block P) (e : Env P) (ts : List (Turn P)),
    (∀ idx : RegIndex,
      step ⟨P, b, { e with turns := .hostRead idx :: ts }⟩ =
        .next ⟨P, b, { e with turns := ts, reads := e.reads ++ [(idx, b.hostRead idx)] }⟩) ∧
    b.hostRead 0x0#4 = b.cmd ∧ b.hostRead 0x1#4 = b.status ∧ b.hostRead 0x2#4 = b.opa ∧
    b.hostRead 0x3#4 = b.opb ∧ b.hostRead 0x4#4 = b.result ∧ b.hostRead 0x5#4 = b.order ∧
    (b.hostRead 0x6#4).toNat = P.W + 2 ^ 8 * P.OUT_DEPTH ∧
    ∀ idx : RegIndex, 0x7 ≤ idx.toNat → b.hostRead idx = 0#P.W

/-- R62: what a write to each index does. What accepting and rejecting a command word do is stated for R100 and R102. -/
def Obligations.HostWriteFollowsTheIndex : Prop :=
  ∀ (P : Params) (b : Block P) (e : Env P) (ts : List (Turn P)) (v : P.Word),
    (∀ idx : RegIndex,
      step ⟨P, b, { e with turns := .hostWrite idx v :: ts }⟩ =
        .next ⟨P, b.hostWrite idx v, { e with turns := ts }⟩) ∧
    (b.eng.state = .idle → b.hostWrite 0x0#4 v = b.accept v) ∧
    (b.eng.state = .run → b.hostWrite 0x0#4 v = b.reject v) ∧
    (∃ st : P.Word, b.hostWrite 0x1#4 v = { b with status := st } ∧
      st.getLsbD 8 = (b.status.getLsbD 8 && !v.getLsbD 8) ∧
      ∀ i, i ≠ 8 → st.getLsbD i = b.status.getLsbD i) ∧
    b.hostWrite 0x2#4 v = { b with opa := v } ∧
    b.hostWrite 0x3#4 v = { b with opb := v } ∧
    ∀ idx : RegIndex, 0x4 ≤ idx.toNat → b.hostWrite idx v = b

/-- R100: acceptance of any word, legal or not, in the step of the write. -/
def Obligations.CmdWriteWhileIdleIsAccepted : Prop :=
  ∀ (P : Params) (b : Block P) (e : Env P) (ts : List (Turn P)) (v : P.Word),
    b.eng.state = .idle →
    ∃ b' : Block P,
      step ⟨P, b, { e with turns := .hostWrite 0x0#4 v :: ts }⟩ = .next ⟨P, b', { e with turns := ts }⟩ ∧
      b'.cmd = v ∧ b'.eng = { state := .run, cw := v, a := b.opa, b := b.opb, j := 0 } ∧
      statusBusy b'.status = true ∧ statusDone b'.status = false ∧
      (∀ i, 2 ≤ i → b'.status.getLsbD i = b.status.getLsbD i) ∧
      b'.result = b.result ∧ b'.order = b.order ∧ b'.opa = b.opa ∧ b'.opb = b.opb ∧ b'.outq = b.outq

/-- R102: rejection sets REJ and changes nothing else. -/
def Obligations.CmdWriteWhileRunningIsRejected : Prop :=
  ∀ (P : Params) (b : Block P) (e : Env P) (ts : List (Turn P)) (v : P.Word),
    b.eng.state = .run →
    ∃ st : P.Word,
      step ⟨P, b, { e with turns := .hostWrite 0x0#4 v :: ts }⟩ =
        .next ⟨P, { b with status := st }, { e with turns := ts }⟩ ∧
      statusRej st = true ∧ ∀ i, i ≠ 8 → st.getLsbD i = b.status.getLsbD i

/-- R66: `Take` on a non-empty FIFO. On an empty one it is not enabled, and the turn changes nothing (the model's choice,
log 3). -/
def Obligations.TakeDeliversTheHead : Prop :=
  ∀ (P : Params) (b : Block P) (e : Env P) (ts : List (Turn P)),
    (∀ v q, b.outq = v :: q →
      step ⟨P, b, { e with turns := .take :: ts }⟩ =
        .next ⟨P, { b with outq := q }, { e with turns := ts, taken := e.taken ++ [v] }⟩) ∧
    (b.outq = [] →
      step ⟨P, b, { e with turns := .take :: ts }⟩ = .next ⟨P, b, { e with turns := ts }⟩)

/-! ## Decoding, and the step -/

/-- The engine's turn while it runs a legal word is `exec` of the command the word decodes to, with the turn taken off the
list. That an empty list gives the engine the turn is the model's choice (log 2). -/
def Obligations.StepRunsTheDecodedCommand : Prop :=
  ∀ (P : Params) (b : Block P) (e : Env P) (i : Instr),
    b.eng.state = .run → decode b.eng.cw = .legal i → e.engineNext →
    step ⟨P, b, e⟩ = exec i ⟨P, b, e.afterTurn⟩

/-- The host's placed word is the one the very next step runs, accepted as R100 says (the model's choice, log 5). -/
def Obligations.WithFetchWordRunsThatWord : Prop :=
  ∀ (P : Params) (b : Block P) (e : Env P) (nbits w : Nat) (i : Instr),
    decode (BitVec.ofNat P.W (w % 2 ^ nbits)) = .legal i →
    step (State.withFetchWord ⟨P, b, e⟩ nbits w) =
      exec i ⟨P, b.accept (BitVec.ofNat P.W (w % 2 ^ nbits)), e⟩

/-- R107: an illegal word runs to completion with ILLEGAL_COMMAND and leaves RESULT and ORDER. That an empty list of turns
gives the engine the turn is the model's choice (log 2). -/
def Obligations.IllegalWordCompletesWithItsCode : Prop :=
  ∀ (P : Params) (b : Block P) (e : Env P) (why : Illegal),
    b.eng.state = .run → decode b.eng.cw = .illegal why → b.eng.j = 0 → e.engineNext →
    ∃ b' : Block P, step ⟨P, b, e⟩ = .next ⟨P, b', e.afterTurn⟩ ∧
      Completed b b' b.result b.order 1#4 false

/-- Words written out from R80 and R82, and the illegal ones R107 and R84 name. -/
def Obligations.SampleWordsDecodeAsTheMapSays : Prop :=
  decode 0x0000000000000000#64 = .legal .nop ∧ decode 0x0000000000000001#64 = .legal .add ∧
  decode 0x0000000000000002#64 = .legal .mul ∧ decode 0x0000000000000003#64 = .legal .rem ∧
  decode 0x0000000000000004#64 = .legal .isprim ∧ decode 0x0000000000000005#64 = .legal .enum ∧
  decode 0x0000000000000006#64 = .legal .deg ∧
  decode 0x0000000000000101#64 = .illegal .reservedBits ∧
  decode 0x0000000000000007#64 = .illegal (.reservedOpcode 0x07#8)

/-- At every width with room for the OPC field, every command's word decodes to the command. -/
def Obligations.DecodeOfEncodeIsTheCommand : Prop :=
  ∀ (w : Nat) (i : Instr), i.wf w = true → decode (encode w i) = .legal i

/-- R83: a word is a command's exactly when it is that command's one word. -/
def Obligations.EachCommandHasExactlyOneWord : Prop :=
  ∀ (w : Nat) (cw : GF2Poly w) (i : Instr), i.wf w = true → (decode cw = .legal i ↔ cw = encode w i)

/-- R84: the illegal words are those with a bit of RSV set and those with an OPC from 0x07 on. -/
def Obligations.IllegalWordsAreTheReservedOnes : Prop :=
  ∀ (w : Nat) (cw : GF2Poly w),
    (∃ why, decode cw = .illegal why) ↔ (2 ^ 8 ≤ cw.toNat ∨ 0x07 ≤ cw.toNat % 2 ^ 8)

/-! ## The commands -/

/-- R106: NOP changes only the flags. -/
def Obligations.NopCompletesAndKeepsTheResults : Prop :=
  ∀ (P : Params) (b : Block P) (e : Env P), b.eng.state = .run → b.eng.j = 0 →
    ∃ b' : Block P, exec .nop ⟨P, b, e⟩ = .next ⟨P, b', e⟩ ∧
      Completed b b' b.result b.order 0#4 false

/-- R140: ADD's result is the exclusive OR of the latched operands. -/
def Obligations.AddCompletesWithTheExclusiveOr : Prop :=
  ∀ (P : Params) (b : Block P) (e : Env P), b.eng.state = .run → b.eng.j = 0 →
    ∃ b' : Block P, exec .add ⟨P, b, e⟩ = .next ⟨P, b', e⟩ ∧
      Completed b b' (b.eng.a ^^^ b.eng.b) b.order 0#4 false

/-- R142: MUL's result is the low half of the full product, and OVF says whether the rest of it is nonzero. -/
def Obligations.MulCompletesWithTheTruncatedProduct : Prop :=
  ∀ (P : Params) (b : Block P) (e : Env P), b.eng.state = .run → b.eng.j = 0 →
    ∃ b' : Block P, exec .mul ⟨P, b, e⟩ = .next ⟨P, b', e⟩ ∧
      Completed b b' ((fullProduct b.eng.a b.eng.b).setWidth P.W) b.order 0#4
        (decide (fullProduct b.eng.a b.eng.b >>> P.W ≠ 0#(2 * P.W - 1)))

/-- R146, with the loop's result said by R147: REM's result is a remainder, and a divisor 0 or 1 is reported with RESULT
kept. -/
def Obligations.RemCompletesWithARemainderOrTheDivisorError : Prop :=
  ∀ (P : Params) (b : Block P) (e : Env P), b.eng.state = .run → b.eng.j = 0 →
    ((b.eng.b = 0#P.W ∨ b.eng.b = 1#P.W) →
      ∃ b' : Block P, exec .rem ⟨P, b, e⟩ = .next ⟨P, b', e⟩ ∧
        Completed b b' b.result b.order 2#4 false) ∧
    (¬(b.eng.b = 0#P.W ∨ b.eng.b = 1#P.W) →
      ∃ (b' : Block P) (r : P.Word), exec .rem ⟨P, b, e⟩ = .next ⟨P, b', e⟩ ∧
        IsRemainder b.eng.a b.eng.b r ∧ Completed b b' r b.order 0#4 false)

/-- R163: ISPRIM's three outcomes, by degree and by what the order search found; it finds nothing when `p[0] = 0`. -/
def Obligations.IsprimCompletesWithTheOrder : Prop :=
  ∀ (P : Params) (b : Block P) (e : Env P), b.eng.state = .run → b.eng.j = 0 →
    ∃ b' : Block P, exec .isprim ⟨P, b, e⟩ = .next ⟨P, b', e⟩ ∧
      (deg b.eng.a < 2 → Completed b b' 0#P.W 0#P.W 0#4 false) ∧
      (2 ≤ deg b.eng.a → ∀ k, ordSearch b.eng.a = some k →
        Completed b b' (if k = 2 ^ deg b.eng.a - 1 then 1#P.W else 0#P.W) (BitVec.ofNat P.W k) 0#4 false) ∧
      (2 ≤ deg b.eng.a → ordSearch b.eng.a = none → Completed b b' 0#P.W 0#P.W 4#4 false) ∧
      (2 ≤ deg b.eng.a → b.eng.a.getLsbD 0 = false → Completed b b' 0#P.W 0#P.W 4#4 false)

/-- R103, R170: ENUM's emit steps, one element a step, and the hold while the FIFO is full. R103 says that a held engine
has no enabled step; that `exec` then answers a next state in which nothing has changed is the model's choice (log 3). -/
def Obligations.EnumEmitsItsElementsOrHolds : Prop :=
  ∀ (P : Params) (b : Block P) (e : Env P), b.eng.state = .run → 2 ≤ deg b.eng.a →
    (∀ k, ordSearch b.eng.a = some k → b.eng.j < k + 1) →
    (ordSearch b.eng.a = none → b.eng.j < 2 ^ deg b.eng.a) →
    (b.outq.length < P.OUT_DEPTH →
      exec .enum ⟨P, b, e⟩ =
        .next ⟨P,
          { b with
            outq := b.outq ++
              [if b.eng.j = 0 then 0#P.W else if b.eng.j = 1 then 1#P.W else power b.eng.a (b.eng.j - 1)]
            eng := { b.eng with j := b.eng.j + 1 } },
          e⟩) ∧
    (P.OUT_DEPTH ≤ b.outq.length → exec .enum ⟨P, b, e⟩ = .next ⟨P, b, e⟩)

/-- R171: ENUM's completion, once all of its elements are out. -/
def Obligations.EnumCompletesWithTheCount : Prop :=
  ∀ (P : Params) (b : Block P) (e : Env P), b.eng.state = .run →
    (deg b.eng.a < 2 → b.eng.j = 0 →
      ∃ b' : Block P, exec .enum ⟨P, b, e⟩ = .next ⟨P, b', e⟩ ∧
        Completed b b' b.result b.order 3#4 false) ∧
    (2 ≤ deg b.eng.a → ∀ k, ordSearch b.eng.a = some k → b.eng.j = k + 1 →
      ∃ b' : Block P, exec .enum ⟨P, b, e⟩ = .next ⟨P, b', e⟩ ∧
        Completed b b' (BitVec.ofNat P.W (k + 1)) (BitVec.ofNat P.W k) 0#4 false) ∧
    (2 ≤ deg b.eng.a → ordSearch b.eng.a = none → b.eng.j = 2 ^ deg b.eng.a →
      ∃ b' : Block P, exec .enum ⟨P, b, e⟩ = .next ⟨P, b', e⟩ ∧
        Completed b b' (BitVec.ofNat P.W (2 ^ deg b.eng.a)) 0#P.W 4#4 false)

/-- R125, with the degree said as R120 says it. -/
def Obligations.DegCompletesWithTheHighestSetBit : Prop :=
  ∀ (P : Params) (b : Block P) (e : Env P), b.eng.state = .run → b.eng.j = 0 →
    ∃ (b' : Block P) (d : Nat), exec .deg ⟨P, b, e⟩ = .next ⟨P, b', e⟩ ∧
      Completed b b' (BitVec.ofNat P.W d) b.order 0#4 false ∧
      (b.eng.a = 0#P.W → d = 0) ∧
      (b.eng.a ≠ 0#P.W → b.eng.a.getLsbD d = true ∧ ∀ i, d < i → b.eng.a.getLsbD i = false)

/-- Section 3 of 40_command_lifecycle.md says that the engine has no enabled step while IDLE (R108). That `exec` and an
engine turn then answer a next state in which nothing has changed is the model's choice (log 3), and so is that an empty
list of turns gives the engine the turn (log 2). -/
def Obligations.IdleEngineHasNoStep : Prop :=
  ∀ (P : Params) (b : Block P) (e : Env P), b.eng.state = .idle →
    (∀ i : Instr, exec i ⟨P, b, e⟩ = .next ⟨P, b, e⟩) ∧
    (e.engineNext → step ⟨P, b, e⟩ = .next ⟨P, b, e.afterTurn⟩)

/-- R21, R103, R104: the frame of every command, in every state and form: CMD, the operand registers, the latched word and
operands, REJ, the reserved bits of STATUS and everything outside the block are unchanged. While the command does not
complete, RESULT, ORDER and all of STATUS are unchanged too. That `exec` answers a next state where the engine has no
enabled step (IDLE, held, or past `|E|`) is the model's choice (logs 3 and 12). -/
def Obligations.EveryCommandKeepsWhatItDoesNotWrite : Prop :=
  ∀ (i : Instr) (P : Params) (b : Block P) (e : Env P),
    ∃ b' : Block P, exec i ⟨P, b, e⟩ = .next ⟨P, b', e⟩ ∧
      b'.cmd = b.cmd ∧ b'.opa = b.opa ∧ b'.opb = b.opb ∧
      b'.eng.cw = b.eng.cw ∧ b'.eng.a = b.eng.a ∧ b'.eng.b = b.eng.b ∧
      statusRej b'.status = statusRej b.status ∧ statusReserved b'.status = statusReserved b.status ∧
      (i ≠ .enum → b'.outq = b.outq) ∧
      (b'.eng.state = b.eng.state → b'.result = b.result ∧ b'.order = b.order ∧ b'.status = b.status) ∧
      (b'.eng.state ≠ b.eng.state → b'.outq = b.outq ∧ b'.eng.j = b.eng.j)

/-! ## The polynomial functions -/

/-- R120: the degree is the highest set bit, and 0 for the zero polynomial. -/
def Obligations.DegreeIsTheHighestSetBit : Prop :=
  ∀ (w : Nat) (a : GF2Poly w),
    (a ≠ 0#w → a.getLsbD (deg a) = true ∧ ∀ i, deg a < i → a.getLsbD i = false) ∧
    (a = 0#w → deg a = 0) ∧ deg a ≤ w - 1 ∧ deg (1#w) = 0

/-- R121: the left shift, bit by bit. -/
def Obligations.ShiftMovesBitsUpAndDropsTheRest : Prop :=
  ∀ (w : Nat) (a : GF2Poly w) (k : Nat),
    (∀ i, k ≤ i → i < w → (shl a k).getLsbD i = a.getLsbD (i - k)) ∧
    (∀ i, i < k → (shl a k).getLsbD i = false) ∧ (w ≤ k → shl a k = 0#w)

/-- R141: the laws of ADD, on its results. -/
def Obligations.AddIsCommutativeAssociativeSelfInverse : Prop :=
  ∀ (w : Nat) (a b c : GF2Poly w),
    (outcomeAdd a b).res = (outcomeAdd b a).res ∧
    (outcomeAdd (a ^^^ b) c).res = (outcomeAdd a (b ^^^ c)).res ∧
    (outcomeAdd a a).res = some 0#w ∧ (outcomeAdd a 0#w).res = some a

/-- R143: MUL's result is the schoolbook sum of truncated shifts, and it overflows exactly when both operands are nonzero
and their degrees add up to `W` or more. -/
def Obligations.MulOverflowsExactlyWhenTheDegreesReachTheWidth : Prop :=
  ∀ (w : Nat) (a b : GF2Poly w),
    (outcomeMul a b).res = some (schoolbookSum a b) ∧
    ((outcomeMul a b).ovf = true ↔ a ≠ 0#w ∧ b ≠ 0#w ∧ w ≤ deg a + deg b)

/-- R144: MUL commutes, truncation included, and distributes over ADD in its result. -/
def Obligations.MulCommutesAndDistributes : Prop :=
  ∀ (w : Nat) (a b c : GF2Poly w),
    (outcomeMul a b).res = (outcomeMul b a).res ∧ (outcomeMul a b).ovf = (outcomeMul b a).ovf ∧
    clmul a (b ^^^ c) = clmul a b ^^^ clmul a c

/-- R147: for a divisor of degree at least 1, REM's result is the one remainder there is. -/
def Obligations.RemainderExistsAndIsUnique : Prop :=
  ∀ (w : Nat) (a b : GF2Poly w), 1 ≤ deg b →
    (outcomeRem a b).res = some (polyRem a b) ∧ IsRemainder a b (polyRem a b) ∧
    ∀ r : GF2Poly w, IsRemainder a b r → r = polyRem a b

/-- R148: what one pass of REM's loop does, how many passes it makes at most, and that it ends: any larger bound on the
passes gives the same result, which the loop's condition stops at. -/
def Obligations.RemainderLoopEndsWithinItsBound : Prop :=
  ∀ (w : Nat) (a b : GF2Poly w), 1 ≤ deg b →
    (∀ r : GF2Poly w, r ≠ 0#w → deg b ≤ deg r →
      (r ^^^ shl b (deg r - deg b)).getLsbD (deg r) = false ∧
      (∀ i, deg r < i → (r ^^^ shl b (deg r - deg b)).getLsbD i = false) ∧
      (r ^^^ shl b (deg r - deg b) = 0#w ∨ deg (r ^^^ shl b (deg r - deg b)) < deg r)) ∧
    deg a + 1 - deg b ≤ w - 1 ∧
    (∀ n, deg a + 1 - deg b ≤ n → remLoop b n a = polyRem a b) ∧
    ¬(polyRem a b ≠ 0#w ∧ deg b ≤ deg (polyRem a b))

/-- R160: the engine's step is MUL by `x`, which does not overflow, and then REM by `p`; its result is reduced again. -/
def Obligations.XstepIsMultiplyByXThenRemainder : Prop :=
  ∀ (w : Nat) (c p : GF2Poly w), 2 ≤ deg p → (c = 0#w ∨ deg c < deg p) →
    (outcomeMul c (polyX w)).ovf = false ∧
    xstep c p = polyRem (clmul c (polyX w)) p ∧
    (xstep c p = 0#w ∨ deg (xstep c p) < deg p)

/-- R161: the power sequence starts at `x`, each power is the one before times `x` reduced modulo `p`, and each is
reduced. -/
def Obligations.PowersAreReducedPowersOfX : Prop :=
  ∀ (w : Nat) (p : GF2Poly w), 2 ≤ deg p →
    power p 1 = polyX w ∧
    ∀ n, 1 ≤ n →
      power p (n + 1) = polyRem (clmul (power p n) (polyX w)) p ∧
      (power p n = 0#w ∨ deg (power p n) < deg p)

/-- R162: the order search returns the smallest exponent that brings the power back to 1, within the bound, and NONE where
no exponent within the bound does. -/
def Obligations.OrderSearchFindsTheSmallestExponent : Prop :=
  ∀ (w : Nat) (p : GF2Poly w), 2 ≤ deg p →
    2 ^ deg p - 1 ≤ 2 ^ (w - 1) - 1 ∧
    (∀ k, ordSearch p = some k →
      1 ≤ k ∧ k ≤ 2 ^ deg p - 1 ∧ power p k = 1#w ∧ ∀ m, 1 ≤ m → m < k → power p m ≠ 1#w) ∧
    (ordSearch p = none → ∀ m, 1 ≤ m → m ≤ 2 ^ deg p - 1 → power p m ≠ 1#w)

/-- R164: the search fails exactly when `p` has no constant term. -/
def Obligations.OrderExistsExactlyWhenTheConstantTermIsOne : Prop :=
  ∀ (w : Nat) (p : GF2Poly w), 2 ≤ deg p →
    (ordSearch p = none ↔ p.getLsbD 0 = false) ∧
    ((∃ k, k ≤ 2 ^ deg p - 1 ∧ ordSearch p = some k) ↔ p.getLsbD 0 = true)

/-- R165, for degree 2 and more (log 18): ISPRIM answers 1 exactly for the primitive polynomials. -/
def Obligations.IsprimDecidesPrimitivity : Prop :=
  ∀ (w : Nat) (p : GF2Poly w), 2 ≤ deg p → ((outcomeIsprim p).res = some 1#w ↔ polyPrimitive p)

/-- R170: the sequence ENUM emits. -/
def Obligations.EnumEmitsZeroOneAndThePowers : Prop :=
  ∀ (w : Nat) (p : GF2Poly w), 2 ≤ deg p →
    (∀ k, ordSearch p = some k →
      (outcomeEnum p).emits.length = k + 1 ∧
      (outcomeEnum p).emits = 0#w :: 1#w :: (List.range (k - 1)).map fun n => power p (n + 1)) ∧
    (ordSearch p = none →
      (outcomeEnum p).emits.length = 2 ^ deg p ∧
      (outcomeEnum p).emits = 0#w :: 1#w :: (List.range (2 ^ deg p - 2)).map fun n => power p (n + 1))

/-- R172, for degree 2 and more (log 18): ENUM of a primitive polynomial lists the whole field once. -/
def Obligations.EnumOfAPrimitiveListsTheField : Prop :=
  ∀ (w : Nat) (p : GF2Poly w), polyPrimitive p →
    (outcomeEnum p).err = .none ∧ (outcomeEnum p).res = some (BitVec.ofNat w (2 ^ deg p)) ∧
    (outcomeEnum p).emits.length = 2 ^ deg p ∧ (outcomeEnum p).emits.Nodup ∧
    (outcomeEnum p).emits[0]? = some 0#w ∧ (outcomeEnum p).emits[1]? = some 1#w ∧
    (∀ j, 2 ≤ j → (outcomeEnum p).emits[j]? ≠ some 1#w) ∧
    ∀ c : GF2Poly w, (c = 0#w ∨ deg c < deg p) → c ∈ (outcomeEnum p).emits

/-- R174 and the last part of R173: ISPRIM and ENUM agree on ORDER and ERR, and ENUM's count is `2^d` exactly when ISPRIM
answers 1. -/
def Obligations.IsprimAndEnumAgree : Prop :=
  ∀ (w : Nat) (p : GF2Poly w), 2 ≤ deg p →
    (outcomeIsprim p).ord = (outcomeEnum p).ord ∧ (outcomeIsprim p).err = (outcomeEnum p).err ∧
    ((outcomeEnum p).err = .none →
      ((outcomeEnum p).res = some (BitVec.ofNat w (2 ^ deg p)) ↔ (outcomeIsprim p).res = some 1#w))

/-- R200, R202: each error code is reported exactly under its condition. -/
def Obligations.EachErrorCodeHasExactlyItsCondition : Prop :=
  ∀ (w : Nat) (cw a b : GF2Poly w),
    ((outcome cw a b).err = .illegalCommand ↔ ∃ why, decode cw = .illegal why) ∧
    ((outcome cw a b).err = .invalidDivisor ↔ decode cw = .legal .rem ∧ (b = 0#w ∨ b = 1#w)) ∧
    ((outcome cw a b).err = .invalidModulus ↔ decode cw = .legal .enum ∧ deg a < 2) ∧
    ((outcome cw a b).err = .orderNotFound ↔
      (decode cw = .legal .isprim ∨ decode cw = .legal .enum) ∧ 2 ≤ deg a ∧ a.getLsbD 0 = false)

/-- R27: OVF is reported by MUL alone, exactly when its product has a bit at `W` or above, and with no error code. -/
def Obligations.OverflowIsReportedByMulAlone : Prop :=
  ∀ (w : Nat) (cw a b : GF2Poly w),
    ((outcome cw a b).ovf = true ↔
      decode cw = .legal .mul ∧ ∃ k, w ≤ k ∧ (fullProduct a b).getLsbD k = true) ∧
    ((outcome cw a b).ovf = true → (outcome cw a b).err = .none)

/-! ## Invariants that every step keeps -/

/-- The five invariants hold at reset, for every parameters. -/
def Obligations.InvariantsHoldAtReset : Prop :=
  ∀ P : Params, (Block.reset P).StatusInv ∧ (Block.reset P).EngineInv ∧ (Block.reset P).ResultsInv ∧
    (Block.reset P).FreshInv ∧ (Block.reset P).OrderInv

/-- R24, R25, R26, R200, R202: the invariant of STATUS. -/
def Obligations.StepKeepsTheStatusInvariant : Prop :=
  ∀ s t : State, step s = .next t → s.block.StatusInv → t.block.StatusInv

/-- R33, R23, R103: the invariant of the engine and its FIFO. -/
def Obligations.StepKeepsTheEngineInvariant : Prop :=
  ∀ s t : State, step s = .next t → s.block.EngineInv → t.block.EngineInv

/-- R203, R240, R68: once BUSY = 0 and DONE = 1, what the host reads belongs to the last accepted command. -/
def Obligations.StepKeepsResultsWithTheirCommand : Prop :=
  ∀ s t : State, step s = .next t → s.block.ResultsInv → t.block.ResultsInv

/-- R26: BUSY = 0 with DONE = 0 happens only after reset, before any command. -/
def Obligations.StepKeepsNotDoneAsFresh : Prop :=
  ∀ s t : State, step s = .next t → s.block.FreshInv → t.block.FreshInv

/-- R31: ORDER stays at most `2^(W-1) - 1`. -/
def Obligations.StepKeepsTheOrderBound : Prop :=
  ∀ s t : State, step s = .next t → s.block.OrderInv → t.block.OrderInv

/-! ## Whole-machine rules -/

/-- No step faults or is refused (R203, R206 as log 16 reads them), and the parameters never change (log 1). That a turn
given to an agent with no enabled step is a step that answers a next state is the model's choice (log 3). So is the list of
turns: a step takes its head off, and an empty list stays empty (log 2). -/
def Obligations.EveryStepAnswersANextState : Prop :=
  ∀ (P : Params) (b : Block P) (e : Env P),
    ∃ (b' : Block P) (e' : Env P), step ⟨P, b, e⟩ = .next ⟨P, b', e'⟩ ∧ e'.turns = e.turns.tail

/-- R21: only a host write to OPA or OPB, or reset, changes an operand register. -/
def Obligations.OnlyTheHostChangesTheOperands : Prop :=
  ∀ (P : Params) (b b' : Block P) (e e' : Env P), step ⟨P, b, e⟩ = .next ⟨P, b', e'⟩ →
    (b'.opa ≠ b.opa → (e.turns.head? = some (.hostWrite 0x2#4 b'.opa) ∨ e.turns.head? = some .reset)) ∧
    (b'.opb ≠ b.opb → (e.turns.head? = some (.hostWrite 0x3#4 b'.opb) ∨ e.turns.head? = some .reset))

/-- R30, R31, R104: a step that changes RESULT, ORDER, ERR, OVF or AZERO is a completion step, which ends the running
command, or reset. -/
def Obligations.OnlyCompletionWritesTheResults : Prop :=
  ∀ (P : Params) (b b' : Block P) (e e' : Env P), step ⟨P, b, e⟩ = .next ⟨P, b', e'⟩ →
    (b'.result ≠ b.result ∨ b'.order ≠ b.order ∨ statusErr b'.status ≠ statusErr b.status ∨
      statusOvf b'.status ≠ statusOvf b.status ∨ statusAzero b'.status ≠ statusAzero b.status) →
    (e.engineNext ∧ b.eng.state = .run ∧ b.eng.j = b.outcome.len ∧ b'.eng.state = .idle ∧
      statusDone b'.status = true) ∨
    e.turns.head? = some .reset

/-- R29: what each step does to REJ. A CMD write while the engine runs sets it, a STATUS write clears it exactly when its
bit 8 is 1, reset clears it, and nothing else changes it. -/
def Obligations.RejIsStickyUntilTheHostClearsIt : Prop :=
  ∀ (P : Params) (b b' : Block P) (e e' : Env P), step ⟨P, b, e⟩ = .next ⟨P, b', e'⟩ →
    (∀ v, e.turns.head? = some (.hostWrite 0x0#4 v) → b.eng.state = .run → statusRej b'.status = true) ∧
    (∀ v, e.turns.head? = some (.hostWrite 0x1#4 v) →
      statusRej b'.status = (statusRej b.status && !v.getLsbD 8)) ∧
    (e.turns.head? = some .reset → statusRej b'.status = false) ∧
    ((∀ v, e.turns.head? = some (.hostWrite 0x0#4 v) → b.eng.state = .idle) →
      (∀ v, e.turns.head? ≠ some (.hostWrite 0x1#4 v)) → e.turns.head? ≠ some .reset →
      statusRej b'.status = statusRej b.status)

/-- R25: what changes BUSY, and how: acceptance sets it and completion clears it (and reset, R230). -/
def Obligations.OnlyAcceptanceAndCompletionChangeBusy : Prop :=
  ∀ (P : Params) (b b' : Block P) (e e' : Env P), step ⟨P, b, e⟩ = .next ⟨P, b', e'⟩ →
    statusBusy b'.status ≠ statusBusy b.status →
    (∃ v, e.turns.head? = some (.hostWrite 0x0#4 v) ∧ b.eng.state = .idle ∧ b'.eng.state = .run ∧
      statusBusy b'.status = true) ∨
    (e.engineNext ∧ b.eng.state = .run ∧ b'.eng.state = .idle ∧ statusBusy b'.status = false) ∨
    (e.turns.head? = some .reset ∧ statusBusy b'.status = false)

/-- R67: what the consumer has and what still waits in the FIFO together grow by the engine's emissions alone, at the end,
each element once. Only reset takes elements away (R231). -/
def Obligations.StreamKeepsOrderAndLosesNothing : Prop :=
  ∀ (P : Params) (b b' : Block P) (e e' : Env P), step ⟨P, b, e⟩ = .next ⟨P, b', e'⟩ →
    e.turns.head? ≠ some .reset →
    (e'.taken ++ b'.outq = e.taken ++ b.outq) ∨
    (e.engineNext ∧ b.eng.state = .run ∧ b.eng.j < b.outcome.len ∧ b'.eng.j = b.eng.j + 1 ∧
      e'.taken ++ b'.outq = e.taken ++ b.outq ++ [b.outcome.elem b.eng.j])

/-- R105, R67, R101: from its acceptance and with the FIFO empty, a command takes `|E| + 1` engine steps when a consumer
takes each element as it comes. The consumer then has exactly `E`, in order, and the block has the command's results. -/
def Obligations.ACommandRunsToCompletionWithAConsumer : Prop :=
  ∀ (P : Params) (b : Block P) (e : Env P) (ts : List (Turn P)),
    b.eng.state = .run → b.eng.j = 0 → b.outq = [] →
    ∃ b' : Block P,
      Sys2Proof.core.run (2 * b.outcome.len + 1)
        (⟨P, b, { e with turns := drainSchedule P b.outcome.len ++ ts }⟩ : State) =
        .next (⟨P, b', { e with turns := ts, taken := e.taken ++ b.outcome.emits }⟩ : State) ∧
      Completed { b with eng := { b.eng with j := b.outcome.len } } b'
        (b.outcome.res.getD b.result) (b.outcome.ord.getD b.order) (errNumber b.outcome.err) b.outcome.ovf

/-- R243: with no consumer, no reset and no write, a command with more elements left than the FIFO has room for never
completes, however many engine turns and host reads are made. That a held engine's turn is a step that changes nothing is
the model's choice (log 3), and so is that an empty list of turns gives the engine the turn (log 2). -/
def Obligations.WithoutAConsumerAStalledCommandNeverCompletes : Prop :=
  ∀ (P : Params) (b : Block P) (e : Env P), b.eng.state = .run →
    b.eng.j + (P.OUT_DEPTH - b.outq.length) < b.outcome.len →
    e.turns.all Turn.isPoll = true →
    ∀ n, ∃ (b' : Block P) (e' : Env P),
      Sys2Proof.core.run n (⟨P, b, e⟩ : State) = .next (⟨P, b', e'⟩ : State) ∧
      b'.eng.state = .run ∧ b'.status = b.status ∧ b'.result = b.result ∧ b'.order = b.order

/-- R63: what the host puts into OPA and OPB while a command runs does not reach the command: the engine's step commutes
with any change of them. That an empty list of turns gives the engine the turn is the model's choice (log 2). -/
def Obligations.OperandWritesDoNotReachTheRunningCommand : Prop :=
  ∀ (P : Params) (b b' : Block P) (e e' : Env P) (x y : P.Word), e.engineNext →
    step ⟨P, b, e⟩ = .next ⟨P, b', e'⟩ →
    step ⟨P, { b with opa := x, opb := y }, e⟩ = .next ⟨P, { b' with opa := x, opb := y }, e'⟩

/-- R68, R240: once a command has been accepted, a read of STATUS sees BUSY or DONE, and never both, until reset. -/
def Obligations.AfterAcceptanceStatusShowsBusyOrDone : Prop :=
  ∀ (P : Params) (b b' : Block P) (e e' : Env P), step ⟨P, b, e⟩ = .next ⟨P, b', e'⟩ →
    b.StatusInv → e.turns.head? ≠ some .reset →
    (statusBusy b.status = true ∨ statusDone b.status = true) →
    (statusBusy b'.status = true ∨ statusDone b'.status = true) ∧
    ¬(statusBusy b'.status = true ∧ statusDone b'.status = true)

/-- R41, R208: a step of one instance leaves every other instance as it was. -/
def Obligations.InstancesDoNotTouchEachOther : Prop :=
  ∀ (n m : Nat) (ms ms' : List State), stepInstance n ms = .next ms' → m ≠ n →
    ms'.length = ms.length ∧ ms'[m]? = ms[m]?
end

