-- ==== Sys2Proof/Laws/Decode.lean ====
section
/-! SUPPORT. The small facts about decoding: the fields as numbers and the opcode map both ways. -/

namespace Sys2Proof

variable {w : Nat}

theorem opcField_toNat (cw : GF2Poly w) : (opcField cw).toNat = cw.toNat % 2 ^ 8 := by
  simp [opcField, BitVec.extractLsb'_toNat]

theorem rsvField_toNat (cw : GF2Poly w) : (rsvField cw).toNat = cw.toNat / 2 ^ 8 := by
  simp [rsvField, BitVec.toNat_ushiftRight, Nat.shiftRight_eq_div_pow]

@[simp] theorem decodeOpcode_opcode (i : Instr) : decodeOpcode (opcode i) = some i := by cases i <;> rfl

theorem decodeOpcode_some (opc : BitVec 8) (i : Instr) : decodeOpcode opc = some i ↔ opc = opcode i := by
  constructor
  · intro h
    rw [← BitVec.toNat_inj]
    unfold decodeOpcode at h
    split at h <;> cases h <;> assumption
  · rintro rfl; exact decodeOpcode_opcode i

theorem opcode_toNat_le (i : Instr) : (opcode i).toNat ≤ 6 := by cases i <;> decide

theorem decode_of_rsv (cw : GF2Poly w) (h : rsvField cw ≠ 0#w) : decode cw = .illegal .reservedBits := if_pos h

theorem decode_of_opc (cw : GF2Poly w) (h : rsvField cw = 0#w) :
    decode cw =
      match decodeOpcode (opcField cw) with
      | some i => .legal i
      | none => .illegal (.reservedOpcode (opcField cw)) := if_neg (by simpa using h)

end Sys2Proof
end

