-- ==== Sys2Proof/Laws/Flags.lean ====
section
/-! SUPPORT. Reading a STATUS field after writing one. Each lemma holds at any width that has the field; at a block's width
`simp` finds the bound itself. -/

namespace Sys2Proof.Machine

variable {w : Nat}

@[simp] theorem nine_le_W (P : Params) : 9 ≤ P.W := by have := P.W_range; omega

/-- The one fact about writing a bit: that bit takes the value and every other bit is kept. -/
theorem getLsbD_setBit (st : GF2Poly w) (k i : Nat) (v : Bool) (hk : k < w) :
    (setBit st k v).getLsbD i = if i = k then v else st.getLsbD i := by
  unfold setBit
  cases v <;> by_cases h : i = k
  · subst h; simp [hk]
  · simp only [Bool.false_eq_true, if_false, BitVec.getLsbD_and, BitVec.getLsbD_not, BitVec.getLsbD_twoPow, h]
    by_cases hi : i < w
    · simp [hi, Ne.symm h]
    · simp [BitVec.getLsbD_of_ge st i (by omega)]
  · subst h; simp [hk]
  · simp [BitVec.getLsbD_twoPow, h, Ne.symm h]

/-- The mask `0xF << 4` has exactly the bits 7:4. -/
theorem getLsbD_errMask (i : Nat) (hw : 9 ≤ w) :
    ((0xF#4).setWidth w <<< 4).getLsbD i = decide (4 ≤ i ∧ i < 8) := by
  have hF : ∀ j, (0xF#4).getLsbD j = decide (j < 4) := by
    intro j
    by_cases hj : j < 4
    · obtain rfl | rfl | rfl | rfl : j = 0 ∨ j = 1 ∨ j = 2 ∨ j = 3 := by omega
      all_goals rfl
    · rw [BitVec.getLsbD_of_ge _ _ (by omega)]; simp [hj]
  rw [BitVec.getLsbD_shiftLeft, BitVec.getLsbD_setWidth, hF, Bool.eq_iff_iff]
  simp only [Bool.and_eq_true, Bool.not_eq_true', decide_eq_true_eq, decide_eq_false_iff_not]
  omega

/-- The one fact about writing ERR: bits 7:4 take the code and every other bit is kept. -/
theorem getLsbD_setErr (st : GF2Poly w) (e : BitVec 4) (i : Nat) (hw : 9 ≤ w) :
    (setErr st e).getLsbD i = if 4 ≤ i ∧ i < 8 then e.getLsbD (i - 4) else st.getLsbD i := by
  unfold setErr
  rw [BitVec.getLsbD_or, BitVec.getLsbD_and, BitVec.getLsbD_not, getLsbD_errMask i hw,
    BitVec.getLsbD_shiftLeft, BitVec.getLsbD_setWidth]
  by_cases h : 4 ≤ i ∧ i < 8
  · have h1 : i < w := by omega
    have h2 : ¬ i < 4 := by omega
    have h3 : i - 4 < w := by omega
    simp [h, h1, h2, h3]
  · by_cases hi : i < w
    · by_cases h4 : i < 4
      · rw [if_neg h]; simp [hi, h4, show ¬ 4 ≤ i by omega]
      · have he : e.getLsbD (i - 4) = false := BitVec.getLsbD_of_ge _ _ (by omega)
        have h8 : ¬ i < 8 := by omega
        simp [hi, he, h8]
    · simp [BitVec.getLsbD_of_ge st i (by omega), hi, h]

/-- STATUS words with the same bits below 9 and the same reserved bits read the same fields. -/
theorem statusErr_eq_of_bits {st st' : GF2Poly w} (h : ∀ i, 4 ≤ i → i < 8 → st.getLsbD i = st'.getLsbD i) :
    statusErr st = statusErr st' := by
  unfold statusErr
  ext i hi
  simp only [BitVec.getElem_extractLsb']
  exact h (4 + i) (by omega) (by omega)

theorem statusReserved_eq_of_bits {st st' : GF2Poly w} (h : ∀ i, 9 ≤ i → st.getLsbD i = st'.getLsbD i) :
    statusReserved st = statusReserved st' := by
  unfold statusReserved
  ext i hi
  rw [BitVec.getElem_ushiftRight, BitVec.getElem_ushiftRight]
  exact h (9 + i) (by omega)

theorem statusErr_setErr (st : GF2Poly w) (e : BitVec 4) (hw : 9 ≤ w) : statusErr (setErr st e) = e := by
  unfold statusErr
  ext i hi
  rw [BitVec.getElem_extractLsb', getLsbD_setErr _ _ _ hw, if_pos (by omega), Nat.add_sub_cancel_left]
  rfl

section Accepted
variable (st : GF2Poly w)
@[simp] theorem statusBusy_accepted (h : 9 ≤ w) : statusBusy (statusAccepted st) = true := by
  rw [statusBusy, statusAccepted, setDone, setBusy, getLsbD_setBit _ _ _ _ (by omega), if_neg (by omega),
    getLsbD_setBit _ _ _ _ (by omega), if_pos rfl]
@[simp] theorem statusDone_accepted (h : 9 ≤ w) : statusDone (statusAccepted st) = false := by
  rw [statusDone, statusAccepted, setDone, getLsbD_setBit _ _ _ _ (by omega), if_pos rfl]

/-- Acceptance keeps every bit of STATUS but BUSY and DONE (R100). -/
theorem getLsbD_accepted (i : Nat) (hi : 2 ≤ i) (h : 9 ≤ w) : (statusAccepted st).getLsbD i = st.getLsbD i := by
  rw [statusAccepted, setDone, setBusy, getLsbD_setBit _ _ _ _ (by omega), if_neg (by omega),
    getLsbD_setBit _ _ _ _ (by omega), if_neg (by omega)]

@[simp] theorem statusOvf_accepted (h : 9 ≤ w) : statusOvf (statusAccepted st) = statusOvf st :=
  getLsbD_accepted st 2 (by omega) h
@[simp] theorem statusAzero_accepted (h : 9 ≤ w) : statusAzero (statusAccepted st) = statusAzero st :=
  getLsbD_accepted st 3 (by omega) h
@[simp] theorem statusErr_accepted (h : 9 ≤ w) : statusErr (statusAccepted st) = statusErr st :=
  statusErr_eq_of_bits fun i h4 _ => getLsbD_accepted st i (by omega) h
@[simp] theorem statusRej_accepted (h : 9 ≤ w) : statusRej (statusAccepted st) = statusRej st :=
  getLsbD_accepted st 8 (by omega) h
@[simp] theorem statusReserved_accepted (h : 9 ≤ w) : statusReserved (statusAccepted st) = statusReserved st :=
  statusReserved_eq_of_bits fun i h9 => getLsbD_accepted st i (by omega) h
end Accepted

section Rej
variable (st : GF2Poly w) (v : Bool)
/-- Writing REJ keeps every other bit of STATUS (R29, R102). -/
theorem getLsbD_setRej (i : Nat) (hi : i ≠ 8) (h : 9 ≤ w) : (setRej st v).getLsbD i = st.getLsbD i := by
  rw [setRej, getLsbD_setBit _ _ _ _ (by omega), if_neg hi]

@[simp] theorem statusRej_setRej (h : 9 ≤ w) : statusRej (setRej st v) = v := by
  rw [statusRej, setRej, getLsbD_setBit _ _ _ _ (by omega), if_pos rfl]
@[simp] theorem statusBusy_setRej (h : 9 ≤ w) : statusBusy (setRej st v) = statusBusy st :=
  getLsbD_setRej st v 0 (by omega) h
@[simp] theorem statusDone_setRej (h : 9 ≤ w) : statusDone (setRej st v) = statusDone st :=
  getLsbD_setRej st v 1 (by omega) h
@[simp] theorem statusOvf_setRej (h : 9 ≤ w) : statusOvf (setRej st v) = statusOvf st :=
  getLsbD_setRej st v 2 (by omega) h
@[simp] theorem statusAzero_setRej (h : 9 ≤ w) : statusAzero (setRej st v) = statusAzero st :=
  getLsbD_setRej st v 3 (by omega) h
@[simp] theorem statusErr_setRej (h : 9 ≤ w) : statusErr (setRej st v) = statusErr st :=
  statusErr_eq_of_bits fun i _ _ => getLsbD_setRej st v i (by omega) h
@[simp] theorem statusReserved_setRej (h : 9 ≤ w) : statusReserved (setRej st v) = statusReserved st :=
  statusReserved_eq_of_bits fun i _ => getLsbD_setRej st v i (by omega) h
end Rej

section Completed
variable (st a : GF2Poly w) (err : ErrCode) (ovf : Bool)
/-- Every bit of STATUS after a completion (R104). -/
theorem getLsbD_completed (i : Nat) (h : 9 ≤ w) :
    (statusCompleted st a err ovf).getLsbD i =
      if i = 1 then true else if i = 0 then false else if i = 3 then azeroFlag a
      else if i = 2 then ovf else if 4 ≤ i ∧ i < 8 then (errNumber err).getLsbD (i - 4) else st.getLsbD i := by
  rw [statusCompleted, setDone, setBusy, setAzero, setOvf, getLsbD_setBit _ _ _ _ (by omega),
    getLsbD_setBit _ _ _ _ (by omega), getLsbD_setBit _ _ _ _ (by omega), getLsbD_setBit _ _ _ _ (by omega),
    getLsbD_setErr _ _ _ h]

@[simp] theorem statusBusy_completed (h : 9 ≤ w) : statusBusy (statusCompleted st a err ovf) = false := by
  rw [statusBusy, getLsbD_completed _ _ _ _ _ h]; rfl
@[simp] theorem statusDone_completed (h : 9 ≤ w) : statusDone (statusCompleted st a err ovf) = true := by
  rw [statusDone, getLsbD_completed _ _ _ _ _ h]; rfl
@[simp] theorem statusOvf_completed (h : 9 ≤ w) : statusOvf (statusCompleted st a err ovf) = ovf := by
  rw [statusOvf, getLsbD_completed _ _ _ _ _ h]; rfl
@[simp] theorem statusAzero_completed (h : 9 ≤ w) :
    statusAzero (statusCompleted st a err ovf) = decide (a = 0#w) := by
  rw [statusAzero, getLsbD_completed _ _ _ _ _ h]; rfl
@[simp] theorem statusErr_completed (h : 9 ≤ w) : statusErr (statusCompleted st a err ovf) = errNumber err := by
  rw [← statusErr_setErr st (errNumber err) h]
  apply statusErr_eq_of_bits
  intro i h4 h8
  rw [getLsbD_completed _ _ _ _ _ h, getLsbD_setErr _ _ _ h, if_neg (by omega), if_neg (by omega),
    if_neg (by omega), if_neg (by omega)]
@[simp] theorem statusRej_completed (h : 9 ≤ w) : statusRej (statusCompleted st a err ovf) = statusRej st := by
  rw [statusRej, getLsbD_completed _ _ _ _ _ h]; rfl
@[simp] theorem statusReserved_completed (h : 9 ≤ w) :
    statusReserved (statusCompleted st a err ovf) = statusReserved st := by
  apply statusReserved_eq_of_bits
  intro i h9
  rw [getLsbD_completed _ _ _ _ _ h, if_neg (by omega), if_neg (by omega), if_neg (by omega), if_neg (by omega),
    if_neg (by omega)]
end Completed

section Zero
@[simp] theorem statusBusy_zero : statusBusy (0#w) = false := BitVec.getLsbD_zero
@[simp] theorem statusDone_zero : statusDone (0#w) = false := BitVec.getLsbD_zero
@[simp] theorem statusOvf_zero : statusOvf (0#w) = false := BitVec.getLsbD_zero
@[simp] theorem statusAzero_zero : statusAzero (0#w) = false := BitVec.getLsbD_zero
@[simp] theorem statusRej_zero : statusRej (0#w) = false := BitVec.getLsbD_zero
@[simp] theorem statusErr_zero : statusErr (0#w) = 0#4 := by
  unfold statusErr; ext i hi; rw [BitVec.getElem_extractLsb', BitVec.getLsbD_zero, BitVec.getElem_zero]
@[simp] theorem statusReserved_zero : statusReserved (0#w) = 0#w := by
  unfold statusReserved; exact BitVec.zero_ushiftRight
@[simp] theorem setRej_zero : setRej (0#w) false = 0#w := by
  simp [setRej, setBit]
end Zero

@[simp] theorem statusRejected_eq (st : GF2Poly w) : statusRejected st = setRej st true := rfl

/-- Every code a command reports is one of 0 to 4 (R200). -/
theorem errNumber_le (e : ErrCode) : (errNumber e).toNat ≤ 4 := by cases e <;> decide

end Sys2Proof.Machine
end

