-- ==== Sys2Proof/Laws/State.lean ====
section
/-! SUPPORT. What each named update of the block and the machine does to each field, so that no proof unfolds a record
update. -/

namespace Sys2Proof.Machine

variable {P : Params}

section Accept
variable (b : Block P) (v : P.Word)
@[simp] theorem accept_cmd : (b.accept v).cmd = v := rfl
@[simp] theorem accept_status : (b.accept v).status = statusAccepted b.status := rfl
@[simp] theorem accept_opa : (b.accept v).opa = b.opa := rfl
@[simp] theorem accept_opb : (b.accept v).opb = b.opb := rfl
@[simp] theorem accept_result : (b.accept v).result = b.result := rfl
@[simp] theorem accept_order : (b.accept v).order = b.order := rfl
@[simp] theorem accept_outq : (b.accept v).outq = b.outq := rfl
@[simp] theorem accept_eng :
    (b.accept v).eng = { state := .run, cw := v, a := b.opa, b := b.opb, j := 0 } := rfl
end Accept

section Reject
variable (b : Block P) (v : P.Word)
@[simp] theorem reject_cmd : (b.reject v).cmd = b.cmd := rfl
@[simp] theorem reject_status : (b.reject v).status = statusRejected b.status := rfl
@[simp] theorem reject_opa : (b.reject v).opa = b.opa := rfl
@[simp] theorem reject_opb : (b.reject v).opb = b.opb := rfl
@[simp] theorem reject_result : (b.reject v).result = b.result := rfl
@[simp] theorem reject_order : (b.reject v).order = b.order := rfl
@[simp] theorem reject_outq : (b.reject v).outq = b.outq := rfl
@[simp] theorem reject_eng : (b.reject v).eng = b.eng := rfl
end Reject

section Emit
variable (b : Block P) (v : P.Word)
@[simp] theorem emit_cmd : (b.emit v).cmd = b.cmd := rfl
@[simp] theorem emit_status : (b.emit v).status = b.status := rfl
@[simp] theorem emit_opa : (b.emit v).opa = b.opa := rfl
@[simp] theorem emit_opb : (b.emit v).opb = b.opb := rfl
@[simp] theorem emit_result : (b.emit v).result = b.result := rfl
@[simp] theorem emit_order : (b.emit v).order = b.order := rfl
@[simp] theorem emit_outq : (b.emit v).outq = b.outq ++ [v] := rfl
@[simp] theorem emit_eng : (b.emit v).eng = { b.eng with j := b.eng.j + 1 } := rfl
end Emit

section Complete
variable (b : Block P) (r : CommandOutcome P.W)
@[simp] theorem complete_cmd : (b.complete r).cmd = b.cmd := rfl
@[simp] theorem complete_status :
    (b.complete r).status = statusCompleted b.status b.eng.a r.err r.ovf := rfl
@[simp] theorem complete_opa : (b.complete r).opa = b.opa := rfl
@[simp] theorem complete_opb : (b.complete r).opb = b.opb := rfl
@[simp] theorem complete_result : (b.complete r).result = r.res.getD b.result := rfl
@[simp] theorem complete_order : (b.complete r).order = r.ord.getD b.order := rfl
@[simp] theorem complete_outq : (b.complete r).outq = b.outq := rfl
@[simp] theorem complete_eng : (b.complete r).eng = { b.eng with state := .idle } := rfl
end Complete

section Reset
@[simp] theorem reset_cmd : (Block.reset P).cmd = 0#P.W := rfl
@[simp] theorem reset_status : (Block.reset P).status = 0#P.W := rfl
@[simp] theorem reset_opa : (Block.reset P).opa = 0#P.W := rfl
@[simp] theorem reset_opb : (Block.reset P).opb = 0#P.W := rfl
@[simp] theorem reset_result : (Block.reset P).result = 0#P.W := rfl
@[simp] theorem reset_order : (Block.reset P).order = 0#P.W := rfl
@[simp] theorem reset_outq : (Block.reset P).outq = [] := rfl
@[simp] theorem reset_eng : (Block.reset P).eng = Engine.reset P := rfl
@[simp] theorem engineReset_state : (Engine.reset P).state = .idle := rfl
@[simp] theorem engineReset_cw : (Engine.reset P).cw = 0#P.W := rfl
@[simp] theorem engineReset_a : (Engine.reset P).a = 0#P.W := rfl
@[simp] theorem engineReset_b : (Engine.reset P).b = 0#P.W := rfl
@[simp] theorem engineReset_j : (Engine.reset P).j = 0 := rfl
end Reset

section Machine
variable (s : State)
@[simp] theorem runCommand_params (r : CommandOutcome s.params.W) : (s.runCommand r).params = s.params := rfl
@[simp] theorem runCommand_block (r : CommandOutcome s.params.W) :
    (s.runCommand r).block = s.block.engineStep r := rfl
@[simp] theorem runCommand_env (r : CommandOutcome s.params.W) : (s.runCommand r).env = s.env := rfl
@[simp] theorem hostReadStep_params (idx : RegIndex) : (s.hostReadStep idx).params = s.params := rfl
@[simp] theorem hostReadStep_block (idx : RegIndex) : (s.hostReadStep idx).block = s.block := rfl
@[simp] theorem hostReadStep_env (idx : RegIndex) :
    (s.hostReadStep idx).env = { s.env with reads := s.env.reads ++ [(idx, s.block.hostRead idx)] } := rfl
@[simp] theorem hostWriteStep_params (idx : RegIndex) (v : s.params.Word) :
    (s.hostWriteStep idx v).params = s.params := rfl
@[simp] theorem hostWriteStep_block (idx : RegIndex) (v : s.params.Word) :
    (s.hostWriteStep idx v).block = s.block.hostWrite idx v := rfl
@[simp] theorem hostWriteStep_env (idx : RegIndex) (v : s.params.Word) :
    (s.hostWriteStep idx v).env = s.env := rfl
@[simp] theorem resetStep_params : s.resetStep.params = s.params := rfl
@[simp] theorem resetStep_block : s.resetStep.block = Block.reset s.params := rfl
@[simp] theorem resetStep_env : s.resetStep.env = s.env := rfl
@[simp] theorem withTurns_params (ts : List (Turn s.params)) : (s.withTurns ts).params = s.params := rfl
@[simp] theorem withTurns_block (ts : List (Turn s.params)) : (s.withTurns ts).block = s.block := rfl
@[simp] theorem withTurns_env (ts : List (Turn s.params)) :
    (s.withTurns ts).env = { s.env with turns := ts } := rfl
@[simp] theorem loadCommand_params (v : s.params.Word) : (s.loadCommand v).params = s.params := rfl
@[simp] theorem loadCommand_block (v : s.params.Word) : (s.loadCommand v).block = s.block.accept v := rfl
@[simp] theorem loadCommand_env (v : s.params.Word) :
    (s.loadCommand v).env = { s.env with turns := .engine :: s.env.turns } := rfl
@[simp] theorem operandA_eq : s.operandA = s.block.eng.a := rfl
@[simp] theorem operandB_eq : s.operandB = s.block.eng.b := rfl
end Machine

end Sys2Proof.Machine
end

