-- ==== Sys2Proof/Laws/Ops.lean ====
section
/-! SUPPORT. What each shared operation can do, said once: the engine's step, the register interface, one turn and the
machine's step. Later proofs cite these and do not unfold the operations. -/

namespace Sys2Proof.Machine

variable {P : Params}

section EngineStep
variable (b : Block P) (r : CommandOutcome P.W)

theorem emitEnabled_iff :
    b.emitEnabled r = true ↔ b.eng.state = .run ∧ b.eng.j < r.len ∧ b.outq.length < P.OUT_DEPTH := by
  simp [Block.emitEnabled, and_assoc]

theorem completeEnabled_iff : b.completeEnabled r = true ↔ b.eng.state = .run ∧ b.eng.j = r.len := by
  simp [Block.completeEnabled]

/-- The three things an engine step can do (R103, R104, R108). -/
theorem engineStep_cases :
    (b.emitEnabled r = true ∧ b.engineStep r = b.emit (r.elem b.eng.j)) ∨
    (b.completeEnabled r = true ∧ b.engineStep r = b.complete r) ∨
    (b.emitEnabled r = false ∧ b.completeEnabled r = false ∧ b.engineStep r = b) := by
  unfold Block.engineStep
  cases h1 : b.emitEnabled r <;> cases h2 : b.completeEnabled r <;> simp

theorem engineStep_emit (h : b.eng.state = .run) (hj : b.eng.j < r.len) (hq : b.outq.length < P.OUT_DEPTH) :
    b.engineStep r = b.emit (r.elem b.eng.j) :=
  if_pos ((emitEnabled_iff b r).2 ⟨h, hj, hq⟩)

theorem engineStep_complete (h : b.eng.state = .run) (hj : b.eng.j = r.len) :
    b.engineStep r = b.complete r := by
  have h1 : ¬ b.emitEnabled r = true := by rw [emitEnabled_iff]; omega
  rw [Block.engineStep, if_neg h1, if_pos ((completeEnabled_iff b r).2 ⟨h, hj⟩)]

theorem engineStep_hold (hj : b.eng.j < r.len) (hq : P.OUT_DEPTH ≤ b.outq.length) : b.engineStep r = b := by
  have h1 : ¬ b.emitEnabled r = true := by rw [emitEnabled_iff]; omega
  have h2 : ¬ b.completeEnabled r = true := by rw [completeEnabled_iff]; omega
  rw [Block.engineStep, if_neg h1, if_neg h2]

theorem engineStep_idle (h : b.eng.state = .idle) : b.engineStep r = b := by
  have h1 : ¬ b.emitEnabled r = true := by rw [emitEnabled_iff, h]; simp
  have h2 : ¬ b.completeEnabled r = true := by rw [completeEnabled_iff, h]; simp
  rw [Block.engineStep, if_neg h1, if_neg h2]

/-- A completion step writes what R104 says and leaves the rest. -/
theorem complete_completed :
    Completed b (b.complete r) (r.res.getD b.result) (r.ord.getD b.order) (errNumber r.err) r.ovf := by
  constructor <;> simp

end EngineStep

section HostWrite
variable (b : Block P) (v : P.Word)

@[simp] theorem hostWrite_cmd : b.hostWrite 0x0#4 v = b.writeCmd v := rfl
@[simp] theorem hostWrite_status :
    b.hostWrite 0x1#4 v = { b with status := statusHostWrite b.status v } := rfl
@[simp] theorem hostWrite_opa : b.hostWrite 0x2#4 v = { b with opa := v } := rfl
@[simp] theorem hostWrite_opb : b.hostWrite 0x3#4 v = { b with opb := v } := rfl

/-- What is at each index of the register interface (R20). -/
theorem regAt_cases (idx : RegIndex) :
    idx = 0x0#4 ∨ idx = 0x1#4 ∨ idx = 0x2#4 ∨ idx = 0x3#4 ∨
      (4 ≤ idx.toNat ∧ (regAt idx = .result ∨ regAt idx = .order ∨ regAt idx = .id ∨ regAt idx = .reserved)) := by
  revert idx; decide

theorem writeCmd_idle (h : b.eng.state = .idle) : b.writeCmd v = b.accept v := by
  simp [Block.writeCmd, h]

theorem writeCmd_run (h : b.eng.state = .run) : b.writeCmd v = b.reject v := by
  simp [Block.writeCmd, h]

/-- What a host write can do, by its index (R62): accept, reject, clear REJ, replace an operand register, or nothing. -/
theorem hostWrite_cases (idx : RegIndex) :
    (idx = 0x0#4 ∧ b.eng.state = .idle ∧ b.hostWrite idx v = b.accept v) ∨
    (idx = 0x0#4 ∧ b.eng.state = .run ∧ b.hostWrite idx v = b.reject v) ∨
    (idx = 0x1#4 ∧ clrRej v = true ∧ b.hostWrite idx v = { b with status := setRej b.status false }) ∨
    (idx = 0x1#4 ∧ clrRej v = false ∧ b.hostWrite idx v = b) ∨
    (idx = 0x2#4 ∧ b.hostWrite idx v = { b with opa := v }) ∨
    (idx = 0x3#4 ∧ b.hostWrite idx v = { b with opb := v }) ∨
    (4 ≤ idx.toNat ∧ b.hostWrite idx v = b) := by
  rcases regAt_cases idx with rfl | rfl | rfl | rfl | ⟨h4, h⟩
  · cases hs : b.eng.state with
    | idle => exact .inl ⟨rfl, rfl, writeCmd_idle b v hs⟩
    | run => exact .inr (.inl ⟨rfl, rfl, writeCmd_run b v hs⟩)
  · cases hc : clrRej v with
    | true => exact .inr (.inr (.inl ⟨rfl, rfl, by simp [statusHostWrite, hc]⟩))
    | false => exact .inr (.inr (.inr (.inl ⟨rfl, rfl, by simp [statusHostWrite, hc]⟩)))
  · exact .inr (.inr (.inr (.inr (.inl ⟨rfl, rfl⟩))))
  · exact .inr (.inr (.inr (.inr (.inr (.inl ⟨rfl, rfl⟩)))))
  · refine .inr (.inr (.inr (.inr (.inr (.inr ⟨h4, ?_⟩)))))
    unfold Block.hostWrite
    rcases h with h | h | h | h <;> rw [h]

end HostWrite

section HostRead
variable (b : Block P)

@[simp] theorem hostRead_cmd : b.hostRead 0x0#4 = b.cmd := rfl
@[simp] theorem hostRead_status : b.hostRead 0x1#4 = b.status := rfl
@[simp] theorem hostRead_opa : b.hostRead 0x2#4 = b.opa := rfl
@[simp] theorem hostRead_opb : b.hostRead 0x3#4 = b.opb := rfl
@[simp] theorem hostRead_result : b.hostRead 0x4#4 = b.result := rfl
@[simp] theorem hostRead_order : b.hostRead 0x5#4 = b.order := rfl
@[simp] theorem hostRead_id : b.hostRead 0x6#4 = idWord P := rfl

/-- Every index from 0x7 up is a reserved one (R20). -/
theorem regAt_reserved (idx : RegIndex) (h : 0x7 ≤ idx.toNat) : regAt idx = .reserved := by
  revert idx; decide

end HostRead

section Take
variable (s : State)

theorem takeStep_empty (h : s.block.outq = []) : s.takeStep = s := by
  unfold State.takeStep; rw [h]

theorem takeStep_cons (v : s.params.Word) (q : List s.params.Word) (h : s.block.outq = v :: q) :
    s.takeStep =
      { s with block := { s.block with outq := q }, env := { s.env with taken := s.env.taken ++ [v] } } := by
  unfold State.takeStep; rw [h]

end Take

/-- Every meaning is one engine step with its command's outcome (R101). -/
theorem exec_eq (i : Instr) (s : State) :
    exec i s = .next (s.runCommand (outcomeOf i s.block.eng.a s.block.eng.b)) := by
  cases i <;> rfl

/-- The engine's turn is one engine step with the outcome of the latched command (R101, R107, R108). -/
theorem engineTurn_eq (b : Block P) (e : Env P) :
    engineTurn ⟨P, b, e⟩ = .next ⟨P, b.engineStep b.outcome, e⟩ := by
  unfold engineTurn
  cases hs : b.eng.state with
  | idle => simp [hs, engineStep_idle]
  | run =>
    simp only
    cases hd : decode b.eng.cw with
    | legal i => simp [exec_eq, State.runCommand, Block.outcome, outcome, hd]
    | illegal why => simp [execIllegal, State.runCommand, Block.outcome, outcome, hd]

/-- Everything one step can do, by whose turn it is (R60). -/
theorem step_cases (b : Block P) (e : Env P) :
    (e.engineNext ∧ step ⟨P, b, e⟩ = .next ⟨P, b.engineStep b.outcome, e.afterTurn⟩) ∨
    (∃ idx ts, e.turns = .hostRead idx :: ts ∧
      step ⟨P, b, e⟩ = .next ⟨P, b, { e.afterTurn with reads := e.reads ++ [(idx, b.hostRead idx)] }⟩) ∨
    (∃ idx v ts, e.turns = .hostWrite idx v :: ts ∧
      step ⟨P, b, e⟩ = .next ⟨P, b.hostWrite idx v, e.afterTurn⟩) ∨
    (∃ ts, e.turns = .take :: ts ∧ b.outq = [] ∧ step ⟨P, b, e⟩ = .next ⟨P, b, e.afterTurn⟩) ∨
    (∃ ts v q, e.turns = .take :: ts ∧ b.outq = v :: q ∧
      step ⟨P, b, e⟩ = .next ⟨P, { b with outq := q }, { e.afterTurn with taken := e.taken ++ [v] }⟩) ∨
    (∃ ts, e.turns = .reset :: ts ∧ step ⟨P, b, e⟩ = .next ⟨P, Block.reset P, e.afterTurn⟩) := by
  obtain ⟨turns, reads, taken⟩ := e
  cases turns with
  | nil =>
    refine .inl ⟨.inl rfl, ?_⟩
    simp only [step, takeTurn, engineTurn_eq, Env.afterTurn, List.tail_nil]
  | cons t ts =>
    cases t with
    | engine =>
      refine .inl ⟨.inr rfl, ?_⟩
      simp only [step, takeTurn, State.withTurns, engineTurn_eq, Env.afterTurn, List.tail_cons]
    | hostRead idx => exact .inr (.inl ⟨idx, ts, rfl, rfl⟩)
    | hostWrite idx v => exact .inr (.inr (.inl ⟨idx, v, ts, rfl, rfl⟩))
    | take =>
      obtain ⟨cmd, status, opa, opb, result, order, outq, eng⟩ := b
      cases outq with
      | nil => exact .inr (.inr (.inr (.inl ⟨ts, rfl, rfl, rfl⟩)))
      | cons v q => exact .inr (.inr (.inr (.inr (.inl ⟨ts, v, q, rfl, rfl, rfl⟩))))
    | reset => exact .inr (.inr (.inr (.inr (.inr ⟨ts, rfl, rfl⟩))))

/-- A run of any machine is its first step and then the others. -/
theorem run_succ (M : Host.Core) (n : Nat) (s t : M.State) (h : M.step s = .next t) :
    M.run (n + 1) s = M.run n t := by
  show (match M.step s with | .next s' => M.run n s' | .fault r => .fault r | .refused r => .refused r) = M.run n t
  rw [h]

/-- No step of this machine: the state itself. -/
theorem core_run_zero (s : State) : Sys2Proof.core.run 0 s = .next s := rfl

/-- One step of this machine and then the others. -/
theorem core_run_succ (n : Nat) (s t : State) (h : step s = .next t) :
    Sys2Proof.core.run (n + 1) s = Sys2Proof.core.run n t :=
  run_succ Sys2Proof.core n s t h

end Sys2Proof.Machine
end

