-- ==== Sys2Proof/Laws/PerInstr.lean ====
section
/-! SUPPORT. Facts about every command as syntax, one lemma per constructor. -/

namespace Sys2Proof.Laws.EncodedWord

/-- The word of a command, at any width with room for the OPC field, is a well-formed command word (R80, R82, R83). -/
def Statement (i : Instr) : Prop := ∀ w, i.wf w = true → commandWordWf (encode w i) = true

/-- An opcode number is its own word's value, and it is an assigned one. -/
theorem of_opcode (i : Instr) : Statement i := by
  intro w h
  have hw : 8 ≤ w := by simpa [Instr.wf] using h
  have hlt : (opcode i).toNat < 2 ^ w :=
    lt_of_le_of_lt (opcode_toNat_le i) (lt_of_lt_of_le (by decide : 6 < 2 ^ 8) (Nat.pow_le_pow_right (by decide) hw))
  have h6 := opcode_toNat_le i
  simp only [commandWordWf, rsvClear, opcAssigned, encode, BitVec.toNat_setWidth, Nat.mod_eq_of_lt hlt,
    Bool.and_eq_true, decide_eq_true_eq]
  omega

theorem nop : Statement .nop := of_opcode _
theorem add : Statement .add := of_opcode _
theorem mul : Statement .mul := of_opcode _
theorem rem : Statement .rem := of_opcode _
theorem isprim : Statement .isprim := of_opcode _
theorem enum : Statement .enum := of_opcode _
theorem deg : Statement .deg := of_opcode _

end Sys2Proof.Laws.EncodedWord
end

