-- ==== Sys2Proof/Laws/Poly.lean ====
section
/-! SUPPORT. The small facts about the polynomial functions: what `degBelow`, `shl`, the remainder loop and the order loop
do at each turn of their recursion. -/

namespace Sys2Proof.Machine

variable {w : Nat}

@[simp] theorem degBelow_zero (a : GF2Poly w) : degBelow a 0 = 0 := rfl

theorem degBelow_succ (a : GF2Poly w) (n : Nat) :
    degBelow a (n + 1) = if a.getLsbD n then n else degBelow a n := rfl

theorem degBelow_le (a : GF2Poly w) (n : Nat) : degBelow a n ≤ n - 1 := by
  induction n with
  | zero => simp
  | succ n ih =>
    rw [degBelow_succ]
    split <;> omega

theorem getLsbD_shl (a : GF2Poly w) (k i : Nat) :
    (shl a k).getLsbD i = (decide (i < w) && !decide (i < k) && a.getLsbD (i - k)) :=
  BitVec.getLsbD_shiftLeft ..

@[simp] theorem shl_zero_amount (a : GF2Poly w) : shl a 0 = a := by simp [shl]

@[simp] theorem clmulBelow_zero (a b : GF2Poly w) : clmulBelow a b 0 = 0#(2 * w - 1) := rfl

theorem clmulBelow_succ (a b : GF2Poly w) (n : Nat) :
    clmulBelow a b (n + 1) =
      clmulBelow a b n ^^^ (if a.getLsbD n then (b.setWidth (2 * w - 1)) <<< n else 0#(2 * w - 1)) := rfl

@[simp] theorem remLoop_zero (b r : GF2Poly w) : remLoop b 0 r = r := rfl

theorem remLoop_succ (b r : GF2Poly w) (n : Nat) :
    remLoop b (n + 1) r =
      if r ≠ 0#w ∧ deg b ≤ deg r then remLoop b n (r ^^^ shl b (deg r - deg b)) else r := rfl

/-- Once the loop's condition fails, the loop is done whatever its bound (R146). -/
theorem remLoop_done (b r : GF2Poly w) (n : Nat) (h : ¬(r ≠ 0#w ∧ deg b ≤ deg r)) : remLoop b n r = r := by
  cases n with
  | zero => rfl
  | succ n => rw [remLoop_succ, if_neg h]

@[simp] theorem power_one (p : GF2Poly w) : power p 1 = polyX w := rfl

theorem power_succ_succ (p : GF2Poly w) (n : Nat) : power p (n + 2) = xstep (power p (n + 1)) p := rfl

@[simp] theorem ordLoop_zero (p cur : GF2Poly w) (n : Nat) : ordLoop p 0 cur n = none := rfl

theorem ordLoop_succ (p cur : GF2Poly w) (f n : Nat) :
    ordLoop p (f + 1) cur n =
      if cur = 1#w then some n
      else if n = groupOrder p then none
      else ordLoop p f (xstep cur p) (n + 1) := rfl

@[simp] theorem elemAt_zero (p : GF2Poly w) : elemAt p 0 = 0#w := rfl
@[simp] theorem elemAt_one (p : GF2Poly w) : elemAt p 1 = 1#w := rfl
@[simp] theorem elemAt_succ_succ (p : GF2Poly w) (n : Nat) : elemAt p (n + 2) = power p (n + 1) := rfl

end Sys2Proof.Machine
end

