-- ==== Sys2Proof/Machine/HostProgram.lean ====
section
/-! DEFINITION. The host's side of the register interface: its notation (30_encoding.md R86) as an agent that yields one
turn at a time, and the platform's placement of the register indices (00_scope.md R7, 20_memory.md R71). Neither is part
of the block. -/

namespace Sys2Proof.Machine

/-- The index of a register's name (R20); a reserved one has none. -/
def Reg.index : Reg → Option RegIndex
  | .cmd => some 0x0#4
  | .status => some 0x1#4
  | .opa => some 0x2#4
  | .opb => some 0x3#4
  | .result => some 0x4#4
  | .order => some 0x5#4
  | .id => some 0x6#4
  | .reserved => none

/-- A value of the notation: a literal or a name bound earlier (R86). -/
inductive HostValue (w : Nat) where
  | lit (v : GF2Poly w)
  | name (n : String)
deriving DecidableEq, Repr

/-- A condition on a name already read (R86): its bits `hi:lo` equal, or do not equal, a number (DESIGN CHOICE, log 15). -/
structure HostCond where
  name : String
  hi : Nat
  lo : Nat
  equal : Bool
  value : Nat
deriving DecidableEq, Repr

/-- The forms of the notation (R86). -/
inductive HostLine (w : Nat) where
  | wr (reg : Reg) (v : HostValue w)
  | rd (reg : Reg) (name : String)
  | label (l : String)
  | ifGoto (c : HostCond) (l : String)
  | out (name : String)
deriving DecidableEq, Repr

/-- `cmd MNEMONIC` (R86). -/
def hostCmd (w : Nat) (i : Instr) : HostLine w := .wr .cmd (.lit (encode w i))

/-- `wait`, with its fresh label and name: poll STATUS while bit 0 is 1 (R86, R240). -/
def hostWait (w : Nat) (l s : String) : List (HostLine w) :=
  [.label l, .rd .status s, .ifGoto { name := s, hi := 0, lo := 0, equal := true, value := 1 } l]

/-- `clrrej` (R86). -/
def hostClrrej (w : Nat) : HostLine w := .wr .status (.lit 0x100#w)

/-- `run MNEMONIC` (R86). -/
def hostRun (w : Nat) (i : Instr) (l s : String) : List (HostLine w) := hostCmd w i :: hostWait w l s

/-- An agent with a program in the notation, its place in it, and the names it has bound, the latest first. -/
structure HostAgent (P : Params) where
  program : List (HostLine P.W)
  pc : Nat
  names : List (String × P.Word)
deriving DecidableEq, Repr

variable {P : Params}

/-- The value a name is bound to. -/
def HostAgent.lookup (h : HostAgent P) (n : String) : Option P.Word :=
  (h.names.find? (fun x => x.1 == n)).map (·.2)

/-- A value of the notation, where its name is bound. -/
def HostAgent.value (h : HostAgent P) : HostValue P.W → Option P.Word
  | .lit v => some v
  | .name n => h.lookup n

/-- Whether a condition holds, where its name is bound. -/
def HostAgent.cond (h : HostAgent P) (c : HostCond) : Option Bool :=
  (h.lookup c.name).map fun v =>
    let field := v.toNat / 2 ^ c.lo % 2 ^ (c.hi + 1 - c.lo)
    if c.equal then field == c.value else field != c.value

/-- The agent at its next line. -/
def HostAgent.advance (h : HostAgent P) : HostAgent P := { h with pc := h.pc + 1 }

/-- The agent at its next line with a name bound. -/
def HostAgent.bind (h : HostAgent P) (n : String) (v : P.Word) : HostAgent P :=
  { h with pc := h.pc + 1, names := (n, v) :: h.names }

/-- The agent at the line of a label, or past the program's end where the label does not stand in it. -/
def HostAgent.jump (h : HostAgent P) (l : String) : HostAgent P :=
  { h with pc := h.program.findIdx (fun x => x == .label l) }

/-- One line of the agent's program against the block as it stands: the agent after it, and the access it makes, if any
(R86). A line that reads an unbound name, or `out` on an empty FIFO (R66), waits where it is. -/
def HostAgent.act (h : HostAgent P) (b : Block P) : HostAgent P × Option (Turn P) :=
  match h.program[h.pc]? with
  | none => (h, none)
  | some (.wr reg v) =>
    match reg.index, h.value v with
    | some idx, some x => (h.advance, some (.hostWrite idx x))
    | _, _ => (h, none)
  | some (.rd reg n) =>
    match reg.index with
    | some idx => (h.bind n (b.hostRead idx), some (.hostRead idx))
    | none => (h, none)
  | some (.label _) => (h.advance, none)
  | some (.ifGoto c l) =>
    match h.cond c with
    | some true => (h.jump l, none)
    | some false => (h.advance, none)
    | none => (h, none)
  | some (.out n) =>
    match b.outData with
    | some v => (h.bind n v, some .take)
    | none => (h, none)

/-- Where a platform places the register indices: pairs of a host address and an index (R7, R71). -/
abbrev HostMap := List (Nat × RegIndex)

/-- The index placed at a host address, if one is. -/
def HostMap.indexAt (m : HostMap) (addr : Nat) : Option RegIndex :=
  (m.find? (fun x => x.1 == addr)).map (·.2)

/-- The block's turn for a platform read; an address with no index is no access of the block (log 10). -/
def HostMap.readTurn (m : HostMap) (addr : Nat) : Option (Turn P) :=
  (m.indexAt addr).map .hostRead

/-- The block's turn for a platform write; an address with no index is no access of the block (log 10). -/
def HostMap.writeTurn (m : HostMap) (addr : Nat) (v : P.Word) : Option (Turn P) :=
  (m.indexAt addr).map fun idx => .hostWrite idx v

end Sys2Proof.Machine
end

