-- ==== Sys2Proof/Tests/Slice0.lean ====
section
/-! SUPPORT. The model's own tests: the smoke test of WellFormed, each command's word, at most two steps of each command,
and a witness for the hypotheses of each statement that has some. Every expected value is from a row of
spec/95_test_vectors.md (named beside it) or worked from the rule named. -/

namespace Sys2Proof.Machine.Tests

/-! ## WellFormed: an ill-formed term for each check -/

theorem test_width_below_16_is_refused : paramsInRange 15 1 = false := by decide
theorem test_width_above_255_is_refused : paramsInRange 256 1 = false := by decide
theorem test_depth_0_is_refused : paramsInRange 64 0 = false := by decide
theorem test_depth_256_is_refused : paramsInRange 64 256 = false := by decide
theorem test_default_parameters_are_taken : paramsInRange 64 1 = true := by decide
theorem test_reserved_bit_is_refused : commandWordWf 0x0000000000000101#64 = false := by decide
theorem test_reserved_opcode_is_refused : commandWordWf 0x0000000000000007#64 = false := by decide
theorem test_width_4_has_no_opc_field : Instr.wf 4 .add = false := by decide

/-! ## Decoding: the word of each command, bit by bit from R80 and R82 -/

theorem test_decode_nop : decode 0x0000000000000000#64 = .legal .nop := by decide
theorem test_decode_add : decode 0x0000000000000001#64 = .legal .add := by decide
theorem test_decode_mul : decode 0x0000000000000002#64 = .legal .mul := by decide
theorem test_decode_rem : decode 0x0000000000000003#64 = .legal .rem := by decide
theorem test_decode_isprim : decode 0x0000000000000004#64 = .legal .isprim := by decide
theorem test_decode_enum : decode 0x0000000000000005#64 = .legal .enum := by decide
theorem test_decode_deg : decode 0x0000000000000006#64 = .legal .deg := by decide
theorem test_decode_enum_16 : decode 0b0000000000000101#16 = .legal .enum := by decide
/-- L2.1.3, L2.1.4, L2.1.5, L2.1.6. -/
theorem test_decode_first_illegal : decode 0x07#64 = .illegal (.reservedOpcode 0x07#8) := by decide
theorem test_decode_last_illegal : decode 0xFF#64 = .illegal (.reservedOpcode 0xFF#8) := by decide
theorem test_decode_rsv_bit_8 : decode 0x101#64 = .illegal .reservedBits := by decide
theorem test_decode_rsv_bit_63 : decode 0x8000000000000002#64 = .illegal .reservedBits := by decide
theorem test_table_row_enum : decodeTableWord 64 0x0000000000000005 = some .enum := by decide

/-! ## Steps -/

/-- The default block with a command running: its word, its latched operands, how much it has emitted, and what RESULT and
ORDER hold. -/
def running (cw a b j result order : Nat) : Block Params.default :=
  { Block.reset Params.default with
    cmd := BitVec.ofNat 64 cw
    status := 0x001#64
    result := BitVec.ofNat 64 result
    order := BitVec.ofNat 64 order
    eng := { state := .run, cw := BitVec.ofNat 64 cw, a := BitVec.ofNat 64 a, b := BitVec.ofNat 64 b, j := j } }

/-- The machine around a block, with these turns to come. -/
def machine (b : Block Params.default) (ts : List (Turn Params.default)) : State :=
  { params := Params.default, block := b, env := { turns := ts, reads := [], taken := [] } }

/-- RESULT, ORDER and STATUS as numbers after one step. -/
def after (s : State) : List Nat :=
  match step s with
  | .next t => [t.block.result.toNat, t.block.order.toNat, t.block.status.toNat]
  | _ => []

/-- `outq` and `eng.j` as numbers after one step. -/
def streamAfter (s : State) : List Nat × Nat :=
  match step s with
  | .next t => (t.block.outq.map (fun v => v.toNat), t.block.eng.j)
  | _ => ([], 0)

/-- L2.1.1. -/
theorem test_nop : after (machine (running 0x00 0x5 0 0 0x5 0x3) []) = [0x5, 0x3, 0x02] := by decide
/-- L2.1.2. -/
theorem test_nop_azero : after (machine (running 0x00 0 0 0 0x5 0x3) []) = [0x5, 0x3, 0x0A] := by decide
/-- L2.1.4. -/
theorem test_illegal : after (machine (running 0xFF 0 0 0 0x5 0x3) []) = [0x5, 0x3, 0x1A] := by decide
/-- L2.2.7. -/
theorem test_deg_all_ones : after (machine (running 0x06 0xFFFFFFFFFFFFFFFF 0 0 0 0) []) = [63, 0, 0x02] := by decide
/-- L2.2.1. -/
theorem test_deg_zero : after (machine (running 0x06 0 0 0 7 0) []) = [0, 0, 0x0A] := by decide
/-- L2.3.2. -/
theorem test_add : after (machine (running 0x01 0 0b11011 0 0 0) []) = [0b11011, 0, 0x0A] := by decide
/-- L2.3.1. -/
theorem test_add_mixed : after (machine (running 0x01 0b101 0b11 0 0 9) []) = [0b110, 9, 0x02] := by decide
/-- L2.4.11. -/
theorem test_mul_overflow : after (machine (running 0x02 0xFFFFFFFFFFFFFFFF 0b11 0 0 0) []) = [1, 0, 0x06] := by
  decide
/-- L2.4.8. -/
theorem test_mul_degree_63 :
    after (machine (running 0x02 0x80000000 0x100000000 0 0 0) []) = [0x8000000000000000, 0, 0x02] := by decide
/-- L2.5.1. -/
theorem test_rem : after (machine (running 0x03 0x3F7E 0x11B 0 0 0) []) = [1, 0, 0x02] := by decide
/-- L2.5.11, with RESULT as in L2.5.12. -/
theorem test_rem_divisor_1 : after (machine (running 0x03 0b1111 1 0 0x77 0) []) = [0x77, 0, 0x22] := by decide
/-- L2.6.16. -/
theorem test_isprim_primitive : after (machine (running 0x04 0b1000011 0 0 0 0) []) = [1, 63, 0x02] := by decide
/-- L2.6.10. -/
theorem test_isprim_no_order : after (machine (running 0x04 0b1100 0 0 5 5) []) = [0, 0, 0x42] := by decide
/-- L2.8.9: the first emit step, and then the hold. -/
theorem test_enum_emits : streamAfter (machine (running 0x05 0b11001 0 0 0 0) []) = ([0], 1) := by decide
/-- L2.7.1: the completion after three elements. -/
theorem test_enum_completes : after (machine (running 0x05 0b101 0 3 0x77 0x55) []) = [3, 2, 0x02] := by decide
/-- L2.8.4: a CMD write while running. -/
theorem test_reject :
    after (machine (running 0x02 0b101 0b11 0 0 0) [.hostWrite 0x0#4 0x01#64]) = [0, 0, 0x101] := by decide
/-- L2.8.1: ID at reset, with `W = 64` and `OUT_DEPTH = 1`. -/
theorem test_id : ((Block.reset Params.default).hostRead 0x6#4).toNat = 0x140 := by decide
/-- The first step after reset runs a placed word: ENUM with OPA = 0 (L2.7.9). -/
theorem test_first_step_runs_the_placed_word : after (State.reset.withFetchWord 64 0x05) = [0, 0, 0x3A] := by decide
/-- The host notation: line 3 of program P1 is `W(0x0, 0x02)`. -/
theorem test_host_cmd :
    ((HostAgent.act (P := Params.default) { program := [hostCmd 64 .mul], pc := 0, names := [] }
      (Block.reset Params.default)).2 = some (.hostWrite 0x0#4 0x02#64)) := by decide
/-- A platform map that places STATUS at address 8 turns a read there into a read of STATUS (R71). -/
theorem test_host_map :
    HostMap.readTurn (P := Params.default) [(0, 0x0#4), (8, 0x1#4)] 8 = some (.hostRead 0x1#4) := by decide

/-! ## Witnesses: concrete states and operands that meet the hypotheses of each statement, clause by clause -/

/-- The engine's turn of a default machine is one engine step. -/
theorem step_machine (b : Block Params.default) :
    step (machine b []) = .next (machine (b.engineStep b.outcome) []) :=
  engineTurn_eq b (machine b []).env

/-- Running MUL by L2.8.2, with an operand register that differs from the latched one. -/
def mulBlock : Block Params.default := { running 0x02 0b101 0b11 0 0 0 with opa := 0b111#64 }

/-- ENUM of `x^4+x^3+1` with a full FIFO (L2.8.9). -/
def heldBlock : Block Params.default := { running 0x05 0b11001 0 1 0 0 with outq := [0#64] }

/-- MUL completed (L2.8.3). -/
def doneBlock : Block Params.default :=
  { running 0x02 0b101 0b11 0 0b1111 0 with
    status := 0x002#64
    eng := { state := .idle, cw := 0x02#64, a := 0b101#64, b := 0b11#64, j := 0 } }

theorem witness_HostWriteFollowsTheIndex :
    (Block.reset Params.default).eng.state = .idle ∧ mulBlock.eng.state = .run ∧ 0x4 ≤ (0x4#4).toNat ∧
      0x4 ≤ (0xF#4).toNat := by decide
theorem witness_HostReadReturnsTheRegisterAndChangesNothing : 0x7 ≤ (0x7#4).toNat ∧ 0x7 ≤ (0xF#4).toNat := by decide
theorem witness_ResetPutsEveryPieceOfStateAtItsValue : (0x5#4 : RegIndex) ≠ 0x6#4 := by decide
theorem witness_CmdWriteWhileIdleIsAccepted : doneBlock.eng.state = .idle := rfl
theorem witness_CmdWriteWhileRunningIsRejected : mulBlock.eng.state = .run := rfl
theorem witness_TakeDeliversTheHead : heldBlock.outq = 0#64 :: [] ∧ mulBlock.outq = [] := ⟨rfl, rfl⟩
theorem witness_StepRunsTheDecodedCommand :
    mulBlock.eng.state = .run ∧ decode mulBlock.eng.cw = .legal .mul ∧
      (machine mulBlock []).env.engineNext ∧ (machine mulBlock [.engine]).env.engineNext :=
  ⟨rfl, by decide, .inl rfl, .inr rfl⟩
theorem witness_WithFetchWordRunsThatWord :
    decode (BitVec.ofNat Params.default.W (0x05 % 2 ^ 64)) = .legal .enum := by decide
theorem witness_IllegalWordCompletesWithItsCode :
    (running 0x101 0 0 0 0 0).eng.state = .run ∧
      decode (running 0x101 0 0 0 0 0).eng.cw = .illegal .reservedBits ∧
      (running 0x101 0 0 0 0 0).eng.j = 0 ∧ (machine (running 0x101 0 0 0 0 0) []).env.engineNext :=
  ⟨rfl, by decide, rfl, .inl rfl⟩
theorem witness_DecodeOfEncodeIsTheCommand : Instr.wf 16 .enum = true ∧ Instr.wf 255 .deg = true := by decide
theorem witness_EachCommandHasExactlyOneWord : Instr.wf 8 .rem = true ∧ (0x03#8 : GF2Poly 8) = encode 8 .rem := by decide
theorem witness_NopCompletesAndKeepsTheResults :
    (running 0x00 5 0 0 5 3).eng.state = .run ∧ (running 0x00 5 0 0 5 3).eng.j = 0 := ⟨rfl, rfl⟩
theorem witness_AddCompletesWithTheExclusiveOr :
    (running 0x01 5 3 0 0 0).eng.state = .run ∧ (running 0x01 5 3 0 0 0).eng.j = 0 := ⟨rfl, rfl⟩
theorem witness_MulCompletesWithTheTruncatedProduct : mulBlock.eng.state = .run ∧ mulBlock.eng.j = 0 := ⟨rfl, rfl⟩
theorem witness_RemCompletesWithARemainderOrTheDivisorError :
    (running 0x03 15 1 0 0 0).eng.state = .run ∧ (running 0x03 15 1 0 0 0).eng.j = 0 ∧
      (running 0x03 15 1 0 0 0).eng.b = 1#Params.default.W ∧ (running 0x03 15 0 0 0 0).eng.b = 0#Params.default.W ∧
      ¬((running 0x03 15 2 0 0 0).eng.b = 0#Params.default.W ∨
        (running 0x03 15 2 0 0 0).eng.b = 1#Params.default.W) := by decide
theorem witness_IsprimCompletesWithTheOrder :
    (running 0x04 3 0 0 0 0).eng.state = .run ∧ (running 0x04 3 0 0 0 0).eng.j = 0 ∧
      deg (running 0x04 3 0 0 0 0).eng.a < 2 ∧
      2 ≤ deg (running 0x04 0b111 0 0 0 0).eng.a ∧ ordSearch (running 0x04 0b111 0 0 0 0).eng.a = some 3 ∧
      2 ≤ deg (running 0x04 0b110 0 0 0 0).eng.a ∧ ordSearch (running 0x04 0b110 0 0 0 0).eng.a = none ∧
      (running 0x04 0b110 0 0 0 0).eng.a.getLsbD 0 = false := by decide
theorem witness_EnumEmitsItsElementsOrHolds :
    (running 0x05 0b111 0 3 0 0).eng.state = .run ∧ 2 ≤ deg (running 0x05 0b111 0 3 0 0).eng.a ∧
      ordSearch (running 0x05 0b111 0 3 0 0).eng.a = some 3 ∧ (running 0x05 0b111 0 3 0 0).eng.j < 3 + 1 ∧
      (running 0x05 0b111 0 3 0 0).outq.length < Params.default.OUT_DEPTH ∧
      Params.default.OUT_DEPTH ≤ heldBlock.outq.length ∧ ordSearch heldBlock.eng.a = some 15 ∧
      heldBlock.eng.j < 15 + 1 ∧ ordSearch (running 0x05 0b110 0 3 0 0).eng.a = none ∧
      (running 0x05 0b110 0 3 0 0).eng.j < 2 ^ deg (running 0x05 0b110 0 3 0 0).eng.a := by decide
theorem witness_EnumCompletesWithTheCount :
    (running 0x05 0b11 0 0 0 0).eng.state = .run ∧ deg (running 0x05 0b11 0 0 0 0).eng.a < 2 ∧
      (running 0x05 0b11 0 0 0 0).eng.j = 0 ∧
      2 ≤ deg (running 0x05 0b101 0 3 0 0).eng.a ∧ ordSearch (running 0x05 0b101 0 3 0 0).eng.a = some 2 ∧
      (running 0x05 0b101 0 3 0 0).eng.j = 2 + 1 ∧
      2 ≤ deg (running 0x05 0b110 0 4 0 0).eng.a ∧ ordSearch (running 0x05 0b110 0 4 0 0).eng.a = none ∧
      (running 0x05 0b110 0 4 0 0).eng.j = 2 ^ deg (running 0x05 0b110 0 4 0 0).eng.a := by decide
theorem witness_DegCompletesWithTheHighestSetBit :
    (running 0x06 1 0 0 0 0).eng.state = .run ∧ (running 0x06 1 0 0 0 0).eng.j = 0 ∧
      (running 0x06 1 0 0 0 0).eng.a ≠ 0#Params.default.W ∧
      (running 0x06 0 0 0 0 0).eng.a = 0#Params.default.W := by decide
theorem witness_IdleEngineHasNoStep : doneBlock.eng.state = .idle ∧ (machine doneBlock []).env.engineNext :=
  ⟨rfl, .inl rfl⟩
theorem witness_EveryCommandKeepsWhatItDoesNotWrite :
    (mulBlock.engineStep (outcomeMul mulBlock.eng.a mulBlock.eng.b)).eng.state ≠ mulBlock.eng.state ∧
      (heldBlock.engineStep (outcomeEnum heldBlock.eng.a)).eng.state = heldBlock.eng.state := by decide

theorem witness_DegreeIsTheHighestSetBit : (0x8000#16 : GF2Poly 16) ≠ 0#16 := by decide
theorem witness_ShiftMovesBitsUpAndDropsTheRest : 3 ≤ 15 ∧ 15 < 16 ∧ 2 < 3 ∧ 16 ≤ 16 := by decide
theorem witness_RemainderExistsAndIsUnique :
    1 ≤ deg (0b10#4 : GF2Poly 4) ∧ IsRemainder (0b1011#4 : GF2Poly 4) 0b10#4 1#4 :=
  ⟨by decide, ⟨0b101#4, by decide⟩, .inr (by decide)⟩
theorem witness_RemainderLoopEndsWithinItsBound :
    1 ≤ deg (0b10#4 : GF2Poly 4) ∧ (0b10#4 : GF2Poly 4) ≠ 0#4 ∧ deg (0b10#4 : GF2Poly 4) ≤ deg (0b10#4 : GF2Poly 4) := by decide
theorem witness_XstepIsMultiplyByXThenRemainder :
    2 ≤ deg (0b111#16 : GF2Poly 16) ∧ (0#16 : GF2Poly 16) = 0#16 ∧ deg (0b10#16 : GF2Poly 16) < deg (0b111#16 : GF2Poly 16) := by
  decide
theorem witness_PowersAreReducedPowersOfX : 2 ≤ deg (0x8001#16 : GF2Poly 16) ∧ 1 ≤ 1 := by decide
theorem witness_OrderSearchFindsTheSmallestExponent :
    2 ≤ deg (0b1001001#16 : GF2Poly 16) ∧ ordSearch (0b1001001#16 : GF2Poly 16) = some 9 ∧ 1 ≤ 8 ∧ 8 < 9 ∧
      2 ≤ deg (0b110#16 : GF2Poly 16) ∧ ordSearch (0b110#16 : GF2Poly 16) = none ∧ 3 ≤ 2 ^ deg (0b110#16 : GF2Poly 16) - 1 := by
  decide
theorem witness_OrderExistsExactlyWhenTheConstantTermIsOne :
    2 ≤ deg (0b111#16 : GF2Poly 16) ∧ (0b111#16 : GF2Poly 16).getLsbD 0 = true ∧
      2 ≤ deg (0b110#16 : GF2Poly 16) ∧ (0b110#16 : GF2Poly 16).getLsbD 0 = false := by decide
theorem witness_IsprimDecidesPrimitivity :
    2 ≤ deg (0b111#16 : GF2Poly 16) ∧ (outcomeIsprim (0b111#16 : GF2Poly 16)).res = some 1#16 := by decide
theorem witness_EnumEmitsZeroOneAndThePowers :
    2 ≤ deg (0b101#16 : GF2Poly 16) ∧ ordSearch (0b101#16 : GF2Poly 16) = some 2 ∧
      2 ≤ deg (0b100#16 : GF2Poly 16) ∧ ordSearch (0b100#16 : GF2Poly 16) = none := by decide
/-- `x^2 + x + 1` is primitive at width 3. -/
theorem witness_EnumOfAPrimitiveListsTheField : polyPrimitive (0b111#3 : GF2Poly 3) := by
  refine ⟨by decide, ⟨by decide, by decide⟩, ?_⟩
  have h : ∀ c : GF2Poly 3, c ≠ 0#3 → deg c < deg (0b111#3 : GF2Poly 3) →
      power 0b111#3 1 = c ∨ power 0b111#3 2 = c ∨ power 0b111#3 3 = c := by decide
  intro c h0 hd
  rcases h c h0 hd with h | h | h
  · exact ⟨1, by decide, h⟩
  · exact ⟨2, by decide, h⟩
  · exact ⟨3, by decide, h⟩
theorem witness_IsprimAndEnumAgree :
    2 ≤ deg (0b1011#16 : GF2Poly 16) ∧ (outcomeEnum (0b1011#16 : GF2Poly 16)).err = .none := by decide
theorem witness_OverflowIsReportedByMulAlone :
    (outcome (0x02#16 : GF2Poly 16) 0x8000#16 0b10#16).ovf = true := by decide

theorem mulBlock_statusInv : mulBlock.StatusInv :=
  ⟨by decide, by decide, by decide, by decide, by decide⟩
theorem witness_StepKeepsTheStatusInvariant :
    step (machine mulBlock []) = .next (machine (mulBlock.engineStep mulBlock.outcome) []) ∧
      (machine mulBlock []).block.StatusInv :=
  ⟨step_machine _, mulBlock_statusInv⟩
theorem witness_StepKeepsTheEngineInvariant :
    step (machine heldBlock []) = .next (machine (heldBlock.engineStep heldBlock.outcome) []) ∧
      (machine heldBlock []).block.EngineInv :=
  ⟨step_machine _, ⟨by decide, by decide, by decide⟩⟩
theorem witness_StepKeepsResultsWithTheirCommand :
    step (machine doneBlock []) = .next (machine (doneBlock.engineStep doneBlock.outcome) []) ∧
      (machine doneBlock []).block.ResultsInv :=
  ⟨step_machine _, ⟨by decide, by decide, by decide,
    fun _ _ _ h => (by decide : doneBlock.result = clmul doneBlock.eng.a doneBlock.eng.b).trans (Option.some.inj h),
    fun _ _ _ h => (nomatch (h : (none : Option (GF2Poly 64)) = some _)), by decide⟩⟩
theorem witness_StepKeepsNotDoneAsFresh :
    step (machine (Block.reset _) []) =
        .next (machine ((Block.reset _).engineStep (Block.reset Params.default).outcome) []) ∧
      (machine (Block.reset _) []).block.FreshInv :=
  ⟨step_machine _, fun _ _ => rfl⟩
theorem witness_StepKeepsTheOrderBound :
    step (machine mulBlock []) = .next (machine (mulBlock.engineStep mulBlock.outcome) []) ∧
      (machine mulBlock []).block.OrderInv :=
  ⟨step_machine _, by unfold Block.OrderInv; decide⟩

theorem witness_OnlyTheHostChangesTheOperands :
    step (machine mulBlock [.hostWrite 0x2#4 0#64]) = .next (machine { mulBlock with opa := 0#64 } []) ∧
      ({ mulBlock with opa := 0#64 } : Block Params.default).opa ≠ mulBlock.opa ∧
      step (machine mulBlock [.hostWrite 0x3#4 1#64]) = .next (machine { mulBlock with opb := 1#64 } []) ∧
      ({ mulBlock with opb := 1#64 } : Block Params.default).opb ≠ mulBlock.opb :=
  ⟨rfl, by decide, rfl, by decide⟩
theorem witness_OnlyCompletionWritesTheResults :
    step (machine mulBlock []) = .next (machine (mulBlock.engineStep mulBlock.outcome) []) ∧
      (mulBlock.engineStep mulBlock.outcome).result ≠ mulBlock.result :=
  ⟨step_machine _, by decide⟩
theorem witness_RejIsStickyUntilTheHostClearsIt :
    step (machine mulBlock [.hostWrite 0x0#4 1#64]) = .next (machine (mulBlock.reject 1#64) []) ∧
      (machine mulBlock [.hostWrite 0x0#4 1#64]).env.turns.head? = some (.hostWrite 0x0#4 1#64) ∧
      mulBlock.eng.state = .run ∧
      step (machine doneBlock [.hostWrite 0x1#4 0x100#64]) =
        .next (machine { doneBlock with status := statusHostWrite doneBlock.status 0x100#64 } []) ∧
      step (machine mulBlock [.reset]) = .next (machine (Block.reset _) []) ∧
      step (machine mulBlock [.take]) = .next (machine mulBlock []) :=
  ⟨rfl, rfl, rfl, rfl, rfl, rfl⟩
theorem witness_OnlyAcceptanceAndCompletionChangeBusy :
    step (machine mulBlock []) = .next (machine (mulBlock.engineStep mulBlock.outcome) []) ∧
      statusBusy (mulBlock.engineStep mulBlock.outcome).status ≠ statusBusy mulBlock.status :=
  ⟨step_machine _, by decide⟩
theorem witness_StreamKeepsOrderAndLosesNothing :
    step (machine (running 0x05 0b111 0 0 0 0) []) =
        .next (machine ((running 0x05 0b111 0 0 0 0).engineStep (running 0x05 0b111 0 0 0 0).outcome) []) ∧
      (machine (running 0x05 0b111 0 0 0 0) []).env.turns.head? ≠ some .reset :=
  ⟨step_machine _, by decide⟩
theorem witness_ACommandRunsToCompletionWithAConsumer :
    (running 0x05 0b111 0 0 0 0).eng.state = .run ∧ (running 0x05 0b111 0 0 0 0).eng.j = 0 ∧
      (running 0x05 0b111 0 0 0 0).outq = [] := by decide
theorem witness_WithoutAConsumerAStalledCommandNeverCompletes :
    heldBlock.eng.state = .run ∧
      heldBlock.eng.j + (Params.default.OUT_DEPTH - heldBlock.outq.length) < heldBlock.outcome.len ∧
      (machine heldBlock [.engine, .hostRead 0x1#4]).env.turns.all Turn.isPoll = true := by decide
theorem witness_OperandWritesDoNotReachTheRunningCommand :
    (machine mulBlock []).env.engineNext ∧
      step (machine mulBlock []) = .next (machine (mulBlock.engineStep mulBlock.outcome) []) :=
  ⟨.inl rfl, step_machine _⟩
theorem witness_AfterAcceptanceStatusShowsBusyOrDone :
    step (machine mulBlock []) = .next (machine (mulBlock.engineStep mulBlock.outcome) []) ∧ mulBlock.StatusInv ∧
      (machine mulBlock []).env.turns.head? ≠ some .reset ∧ statusBusy mulBlock.status = true :=
  ⟨step_machine _, mulBlock_statusInv, by decide, by decide⟩
theorem witness_InstancesDoNotTouchEachOther :
    stepInstance 0 [machine mulBlock [], machine heldBlock []] =
        .next [machine (mulBlock.engineStep mulBlock.outcome) [], machine heldBlock []] ∧ 1 ≠ 0 := by
  refine ⟨?_, by decide⟩
  simp [stepInstance, step_machine]

end Sys2Proof.Machine.Tests
end

/-! PROOFS. The state after reset, the ID register and the REJ flag (10_state.md). -/

namespace Sys2Proof.Machine

variable {P : Params}

/-! ### ID as a number (R32) -/

/-- The two bytes of ID do not overlap, and a width of 16 or more loses neither. -/
theorem idWord_toNat (P : Params) : (idWord P).toNat = P.W + 2 ^ 8 * P.OUT_DEPTH := by
  obtain ⟨hW16, hW255⟩ := P.W_range
  obtain ⟨-, hD255⟩ := P.OUT_DEPTH_range
  have hpow : 2 ^ 16 ≤ 2 ^ P.W := Nat.pow_le_pow_right (by decide) hW16
  have hlow : ((BitVec.ofNat 8 P.W).setWidth P.W).toNat = P.W := by
    rw [BitVec.toNat_setWidth, BitVec.toNat_ofNat, Nat.mod_eq_of_lt (a := P.W) (by omega),
      Nat.mod_eq_of_lt (by omega)]
  have hhigh : ((BitVec.ofNat 8 P.OUT_DEPTH).setWidth P.W <<< 8).toNat = P.OUT_DEPTH <<< 8 := by
    rw [BitVec.toNat_shiftLeft, BitVec.toNat_setWidth, BitVec.toNat_ofNat,
      Nat.mod_eq_of_lt (a := P.OUT_DEPTH) (by omega), Nat.mod_eq_of_lt (a := P.OUT_DEPTH) (by omega),
      Nat.mod_eq_of_lt (by rw [Nat.shiftLeft_eq]; omega)]
  rw [idWord, BitVec.toNat_or, hlow, hhigh, Nat.or_comm, ← Nat.shiftLeft_add_eq_or_of_lt (by omega),
    Nat.shiftLeft_eq]
  omega

/-- Settles O3: each field is a quotient or remainder of ID as a number. -/
theorem idReadsTheParameters : Obligations.IdReadsTheParameters := by
  intro P b v
  have hid : (b.hostRead 0x6#4).toNat = P.W + 2 ^ 8 * P.OUT_DEPTH := idWord_toNat P
  have hW := P.W_range
  have hD := P.OUT_DEPTH_range
  refine ⟨?_, ?_, ?_, rfl⟩
  · rw [BitVec.extractLsb'_toNat, hid, Nat.shiftRight_eq_div_pow]
    omega
  · rw [BitVec.extractLsb'_toNat, hid, Nat.shiftRight_eq_div_pow]
    omega
  · apply BitVec.eq_of_toNat_eq
    rw [BitVec.toNat_ushiftRight, hid, Nat.shiftRight_eq_div_pow, BitVec.toNat_zero]
    omega

/-! ### The reset block (R43) -/

/-- In the reset block every register but ID reads 0. -/
theorem hostRead_reset (idx : RegIndex) (h : idx ≠ 0x6#4) : (Block.reset P).hostRead idx = 0#P.W := by
  have hreg : regAt idx ≠ .id := by
    revert idx; decide
  unfold Block.hostRead
  cases hr : regAt idx with
  | id => exact absurd hr hreg
  | cmd | status | opa | opb | result | order | reserved => rfl

/-- Settles O1: ID by its number, every other register by its index, the hidden state by the reset record itself. -/
theorem resetPutsEveryPieceOfStateAtItsValue : Obligations.ResetPutsEveryPieceOfStateAtItsValue :=
  fun P => ⟨hostRead_reset, idWord_toNat P, rfl, rfl, rfl, rfl, rfl, rfl, rfl⟩

/-! ### One step, read as an inversion -/

/-- Two outcomes over the same parameters are the same when their blocks and agents are. -/
theorem next_mk_inj {b b' : Block P} {e e' : Env P}
    (h : (.next ⟨P, b, e⟩ : Host.Outcome State Fault Refusal) = .next ⟨P, b', e'⟩) : b' = b ∧ e' = e := by
  cases h
  exact ⟨rfl, rfl⟩

/-- `step_cases` as an inversion: what a step that answers `b'` and `e'` can have been (R60). -/
theorem step_inv {b b' : Block P} {e e' : Env P} (h : step ⟨P, b, e⟩ = .next ⟨P, b', e'⟩) :
    (e.engineNext ∧ b' = b.engineStep b.outcome ∧ e' = e.afterTurn) ∨
    (∃ idx, e.turns.head? = some (.hostRead idx) ∧ b' = b ∧
      e' = { e.afterTurn with reads := e.reads ++ [(idx, b.hostRead idx)] }) ∨
    (∃ idx v, e.turns.head? = some (.hostWrite idx v) ∧ b' = b.hostWrite idx v ∧ e' = e.afterTurn) ∨
    (e.turns.head? = some .take ∧ b.outq = [] ∧ b' = b ∧ e' = e.afterTurn) ∨
    (∃ v q, e.turns.head? = some .take ∧ b.outq = v :: q ∧ b' = { b with outq := q } ∧
      e' = { e.afterTurn with taken := e.taken ++ [v] }) ∨
    (e.turns.head? = some .reset ∧ b' = Block.reset P ∧ e' = e.afterTurn) := by
  rcases step_cases b e with ⟨hn, hs⟩ | ⟨idx, ts, ht, hs⟩ | ⟨idx, v, ts, ht, hs⟩ | ⟨ts, ht, hq, hs⟩ |
    ⟨ts, v, q, ht, hq, hs⟩ | ⟨ts, ht, hs⟩ <;>
    obtain ⟨hb, he⟩ := next_mk_inj (hs.symm.trans h)
  · exact .inl ⟨hn, hb, he⟩
  · exact .inr (.inl ⟨idx, by rw [ht]; rfl, hb, he⟩)
  · exact .inr (.inr (.inl ⟨idx, v, by rw [ht]; rfl, hb, he⟩))
  · exact .inr (.inr (.inr (.inl ⟨by rw [ht]; rfl, hq, hb, he⟩)))
  · exact .inr (.inr (.inr (.inr (.inl ⟨v, q, by rw [ht]; rfl, hq, hb, he⟩))))
  · exact .inr (.inr (.inr (.inr (.inr ⟨by rw [ht]; rfl, hb, he⟩))))

/-! ### REJ (R29) -/

/-- Neither an emission nor a completion touches REJ (R29). -/
@[simp] theorem statusRej_engineStep (b : Block P) (r : CommandOutcome P.W) :
    statusRej (b.engineStep r).status = statusRej b.status := by
  rcases engineStep_cases b r with ⟨-, h⟩ | ⟨-, h⟩ | ⟨-, -, h⟩ <;> simp [h]

/-- REJ after a CMD write: set while the engine runs, kept while it is idle (R100, R102). -/
@[simp] theorem statusRej_writeCmd (b : Block P) (v : P.Word) :
    statusRej (b.writeCmd v).status = (statusRej b.status || decide (b.eng.state = .run)) := by
  cases hs : b.eng.state with
  | idle => simp [writeCmd_idle b v hs]
  | run => simp [writeCmd_run b v hs]

/-- REJ after a STATUS write: cleared exactly by CLRREJ (R29, R62). -/
@[simp] theorem statusRej_statusHostWrite {w : Nat} (st v : GF2Poly w) (hw : 9 ≤ w) :
    statusRej (statusHostWrite st v) = (statusRej st && !v.getLsbD 8) := by
  unfold statusHostWrite clrRej
  cases v.getLsbD 8 <;> simp [hw]

/-- REJ after the next turn of `b`, by whose turn it is (R29); an empty list gives the engine its turn. -/
def Block.rejAfter (b : Block P) : Option (Turn P) → Bool
  | some (.hostWrite idx v) =>
    if idx = 0x0#4 then statusRej b.status || decide (b.eng.state = .run)
    else if idx = 0x1#4 then statusRej b.status && !v.getLsbD 8
    else statusRej b.status
  | some .reset => false
  | _ => statusRej b.status

/-- A host write to any index but CMD and STATUS leaves STATUS as it is (R62). -/
theorem hostWrite_keeps_status (b : Block P) {idx : RegIndex} (v : P.Word) (h0 : idx ≠ 0x0#4) (h1 : idx ≠ 0x1#4) :
    (b.hostWrite idx v).status = b.status := by
  rcases hostWrite_cases b v idx with ⟨h, -⟩ | ⟨h, -⟩ | ⟨h, -⟩ | ⟨h, -⟩ | ⟨-, h⟩ | ⟨-, h⟩ | ⟨-, h⟩
  · exact absurd h h0
  · exact absurd h h0
  · exact absurd h h1
  · exact absurd h h1
  · rw [h]
  · rw [h]
  · rw [h]

/-- A host write leaves REJ as `rejAfter` says (R62). -/
theorem statusRej_hostWrite (b : Block P) (idx : RegIndex) (v : P.Word) :
    statusRej (b.hostWrite idx v).status = b.rejAfter (some (.hostWrite idx v)) := by
  by_cases h0 : idx = 0x0#4
  · subst h0; simp [Block.rejAfter]
  · by_cases h1 : idx = 0x1#4
    · subst h1; simp [Block.rejAfter]
    · simp [Block.rejAfter, h0, h1, hostWrite_keeps_status]

/-- Every step leaves REJ as `rejAfter` says (R29). -/
theorem statusRej_step {b b' : Block P} {e e' : Env P} (h : step ⟨P, b, e⟩ = .next ⟨P, b', e'⟩) :
    statusRej b'.status = b.rejAfter e.turns.head? := by
  rcases step_inv h with ⟨hn | hn, rfl, -⟩ | ⟨idx, ht, rfl, -⟩ | ⟨idx, v, ht, rfl, -⟩ | ⟨ht, -, rfl, -⟩ |
    ⟨v, q, ht, -, rfl, -⟩ | ⟨ht, rfl, -⟩
  · rw [hn]; exact statusRej_engineStep b _
  · rw [hn]; exact statusRej_engineStep b _
  · rw [ht]; rfl
  · rw [ht]; exact statusRej_hostWrite b idx v
  · rw [ht]; rfl
  · rw [ht]; rfl
  · rw [ht]; exact statusRej_zero

/-- A turn that is no CMD write to a running engine, no STATUS write and no reset keeps REJ (R29). -/
theorem rejAfter_eq_statusRej (b : Block P) (t : Option (Turn P))
    (hcmd : ∀ v, t = some (.hostWrite 0x0#4 v) → b.eng.state = .idle)
    (hstatus : ∀ v, t ≠ some (.hostWrite 0x1#4 v)) (hreset : t ≠ some .reset) :
    b.rejAfter t = statusRej b.status := by
  match t with
  | none | some (.hostRead _) | some .engine | some .take => rfl
  | some .reset => exact absurd rfl hreset
  | some (.hostWrite idx v) =>
    have h1 : idx ≠ 0x1#4 := by rintro rfl; exact hstatus v rfl
    by_cases h0 : idx = 0x0#4
    · subst h0
      simp [Block.rejAfter, hcmd v rfl]
    · simp [Block.rejAfter, h0, h1]

/-- Settles O52: the clauses are `rejAfter` at a CMD write, a STATUS write, reset and every other turn. -/
theorem rejIsStickyUntilTheHostClearsIt : Obligations.RejIsStickyUntilTheHostClearsIt := by
  intro P b b' e e' h
  rw [statusRej_step h]
  refine ⟨fun v hv hrun => ?_, fun v hv => ?_, fun hv => ?_, rejAfter_eq_statusRej b _⟩
  · simp [hv, Block.rejAfter, hrun]
  · rw [hv]; rfl
  · rw [hv]; rfl

end Sys2Proof.Machine

/-! PROOFS. The register interface and the stream port (20_memory.md). -/

namespace Sys2Proof.Machine

variable {P : Params}

/-! ### Host reads (R61) -/

/-- A host-read turn only records the value read. -/
theorem step_hostRead (b : Block P) (e : Env P) (idx : RegIndex) (ts : List (Turn P)) :
    step ⟨P, b, { e with turns := .hostRead idx :: ts }⟩ =
      .next ⟨P, b, { e with turns := ts, reads := e.reads ++ [(idx, b.hostRead idx)] }⟩ := rfl

/-- A reserved index reads 0 (R20, R61). -/
theorem hostRead_reserved (b : Block P) {idx : RegIndex} (h : 0x7 ≤ idx.toNat) : b.hostRead idx = 0#P.W := by
  unfold Block.hostRead
  rw [regAt_reserved idx h]

/-- Settles O4: the step is its own equation, and each index has one of the read lemmas. -/
theorem hostReadReturnsTheRegisterAndChangesNothing : Obligations.HostReadReturnsTheRegisterAndChangesNothing :=
  fun P b e ts =>
    ⟨fun idx => step_hostRead b e idx ts, hostRead_cmd b, hostRead_status b, hostRead_opa b, hostRead_opb b,
      hostRead_result b, hostRead_order b, idWord_toNat P, fun _ h => hostRead_reserved b h⟩

/-! ### Host writes (R62) -/

/-- A host-write turn is the block's write of that index. -/
theorem step_hostWrite (b : Block P) (e : Env P) (idx : RegIndex) (v : P.Word) (ts : List (Turn P)) :
    step ⟨P, b, { e with turns := .hostWrite idx v :: ts }⟩ =
      .next ⟨P, b.hostWrite idx v, { e with turns := ts }⟩ := rfl

/-- A STATUS write keeps every bit but REJ (R62). -/
theorem getLsbD_statusHostWrite {w : Nat} (st v : GF2Poly w) (i : Nat) (hi : i ≠ 8) (hw : 9 ≤ w) :
    (statusHostWrite st v).getLsbD i = st.getLsbD i := by
  unfold statusHostWrite
  split
  · exact getLsbD_setRej st false i hi hw
  · rfl

/-- A write to RESULT, ORDER, ID or a reserved index has no effect (R62). -/
theorem hostWrite_without_effect (b : Block P) (v : P.Word) {idx : RegIndex} (h4 : 0x4 ≤ idx.toNat) :
    b.hostWrite idx v = b := by
  rcases hostWrite_cases b v idx with ⟨rfl, -⟩ | ⟨rfl, -⟩ | ⟨rfl, -⟩ | ⟨rfl, -⟩ | ⟨rfl, -⟩ | ⟨rfl, -⟩ | ⟨-, h⟩
  iterate 6 exact absurd h4 (by decide)
  exact h

/-- Settles O5: CMD by the engine's state, STATUS bit by bit, the operand registers and the other indices by their
own equations. -/
theorem hostWriteFollowsTheIndex : Obligations.HostWriteFollowsTheIndex := by
  intro P b e ts v
  have hstatus : ∃ st : P.Word, b.hostWrite 0x1#4 v = { b with status := st } ∧
      st.getLsbD 8 = (b.status.getLsbD 8 && !v.getLsbD 8) ∧
      ∀ i, i ≠ 8 → st.getLsbD i = b.status.getLsbD i :=
    ⟨statusHostWrite b.status v, hostWrite_status b v, statusRej_statusHostWrite b.status v (nine_le_W P),
      fun i hi => getLsbD_statusHostWrite b.status v i hi (nine_le_W P)⟩
  exact ⟨fun idx => step_hostWrite b e idx v ts, writeCmd_idle b v, writeCmd_run b v, hstatus,
    hostWrite_opa b v, hostWrite_opb b v, fun _ h4 => hostWrite_without_effect b v h4⟩

/-! ### The stream (R66, R67) -/

/-- No host write reaches the FIFO. -/
@[simp] theorem hostWrite_outq (b : Block P) (idx : RegIndex) (v : P.Word) :
    (b.hostWrite idx v).outq = b.outq := by
  rcases hostWrite_cases b v idx with ⟨-, -, h⟩ | ⟨-, -, h⟩ | ⟨-, -, h⟩ | ⟨-, -, h⟩ | ⟨-, h⟩ | ⟨-, h⟩ | ⟨-, h⟩ <;>
    simp [h]

/-- What an engine step does to the FIFO: nothing, or it counts one element of `E` and puts it at the end (R103). -/
theorem engineStep_outq_cases (b : Block P) (r : CommandOutcome P.W) :
    (b.engineStep r).outq = b.outq ∨
    (b.eng.state = .run ∧ b.eng.j < r.len ∧ (b.engineStep r).eng.j = b.eng.j + 1 ∧
      (b.engineStep r).outq = b.outq ++ [r.elem b.eng.j]) := by
  rcases engineStep_cases b r with ⟨hemit, h⟩ | ⟨-, h⟩ | ⟨-, -, h⟩
  · obtain ⟨hrun, hj, -⟩ := (emitEnabled_iff b r).1 hemit
    exact .inr ⟨hrun, hj, by simp [h], by simp [h]⟩
  · exact .inl (by simp [h])
  · exact .inl (by rw [h])

@[simp] theorem afterTurn_taken (e : Env P) : e.afterTurn.taken = e.taken := rfl

/-- Settles O54: the engine's turn may append, a `Take` moves the head across, and every other turn but reset leaves
both lists alone. -/
theorem streamKeepsOrderAndLosesNothing : Obligations.StreamKeepsOrderAndLosesNothing := by
  intro P b b' e e' hstep hreset
  rcases step_inv hstep with ⟨hnext, rfl, rfl⟩ | ⟨idx, -, rfl, rfl⟩ | ⟨idx, v, -, rfl, rfl⟩ | ⟨-, -, rfl, rfl⟩ |
    ⟨v, q, -, hq, rfl, rfl⟩ | ⟨ht, -, -⟩
  · rcases engineStep_outq_cases b b.outcome with houtq | ⟨hrun, hj, hcount, houtq⟩
    · exact .inl (by rw [houtq, afterTurn_taken])
    · exact .inr ⟨hnext, hrun, hj, hcount, by rw [houtq, afterTurn_taken, List.append_assoc]⟩
  · exact .inl rfl
  · exact .inl (by rw [hostWrite_outq, afterTurn_taken])
  · exact .inl rfl
  · exact .inl (by rw [hq, List.append_assoc, List.singleton_append])
  · exact absurd ht hreset

end Sys2Proof.Machine

/-! PROOFS. The command word (30_encoding.md): a word is its two fields, so the decoder's reading of them fixes it. -/

namespace Sys2Proof

variable {w : Nat}

/-- A word decodes to a command when RSV is clear and OPC holds the command's opcode (R83). -/
theorem decode_eq_legal_iff (cw : GF2Poly w) (i : Instr) :
    decode cw = .legal i ↔ rsvField cw = 0#w ∧ opcField cw = opcode i := by
  by_cases hrsv : rsvField cw = 0#w
  · rw [decode_of_opc cw hrsv, ← decodeOpcode_some]
    cases decodeOpcode (opcField cw) <;> simp [hrsv]
  · simp [decode_of_rsv cw hrsv, hrsv]

/-- At a width with room for OPC, the word with OPC `opc` and a clear RSV is `zext_W(opc)` alone (R80). -/
theorem eq_setWidth_iff_fields (hw : 8 ≤ w) (cw : GF2Poly w) (opc : BitVec 8) :
    cw = opc.setWidth w ↔ rsvField cw = 0#w ∧ opcField cw = opc := by
  have hopc : opc.toNat < 2 ^ 8 := opc.isLt
  have hzext : (opc.setWidth w).toNat = opc.toNat := BitVec.toNat_setWidth_of_le hw
  rw [← BitVec.toNat_inj, ← BitVec.toNat_inj, ← BitVec.toNat_inj, hzext, rsvField_toNat, opcField_toNat,
    BitVec.toNat_zero]
  omega

/-- Settles O14: both sides say that RSV is clear and OPC is the command's opcode. -/
theorem eachCommandHasExactlyOneWord : Obligations.EachCommandHasExactlyOneWord := by
  intro w cw i hwf
  have hw : 8 ≤ w := by simpa [Instr.wf] using hwf
  rw [decode_eq_legal_iff, encode, eq_setWidth_iff_fields hw]

end Sys2Proof

/-! PROOFS. The life of a command (40_command_lifecycle.md): acceptance, rejection and completion. -/

namespace Sys2Proof.Machine

variable {P : Params}

/-! ### A CMD write (R100, R102) -/

/-- A CMD write while IDLE is the acceptance, in the step of the write (R100). -/
theorem step_writeCmd_idle (b : Block P) (e : Env P) (v : P.Word) (ts : List (Turn P)) (hidle : b.eng.state = .idle) :
    step ⟨P, b, { e with turns := .hostWrite 0x0#4 v :: ts }⟩ = .next ⟨P, b.accept v, { e with turns := ts }⟩ := by
  rw [step_hostWrite, hostWrite_cmd, writeCmd_idle b v hidle]

/-- A CMD write while RUN is the rejection (R102). -/
theorem step_writeCmd_run (b : Block P) (e : Env P) (v : P.Word) (ts : List (Turn P)) (hrun : b.eng.state = .run) :
    step ⟨P, b, { e with turns := .hostWrite 0x0#4 v :: ts }⟩ = .next ⟨P, b.reject v, { e with turns := ts }⟩ := by
  rw [step_hostWrite, hostWrite_cmd, writeCmd_run b v hrun]

/-- Settles O6: the step is `accept`, whose fields are its own equations; in STATUS it writes only bits 0 and 1. -/
theorem cmdWriteWhileIdleIsAccepted : Obligations.CmdWriteWhileIdleIsAccepted := by
  intro P b e ts v hidle
  have hW : 9 ≤ P.W := nine_le_W P
  exact ⟨b.accept v, step_writeCmd_idle b e v ts hidle, accept_cmd b v, accept_eng b v,
    statusBusy_accepted b.status hW, statusDone_accepted b.status hW,
    fun i hi => getLsbD_accepted b.status i hi hW,
    accept_result b v, accept_order b v, accept_opa b v, accept_opb b v, accept_outq b v⟩

/-- Settles O7: the step is `reject`, which writes only bit 8 of STATUS. -/
theorem cmdWriteWhileRunningIsRejected : Obligations.CmdWriteWhileRunningIsRejected := by
  intro P b e ts v hrun
  have hW : 9 ≤ P.W := nine_le_W P
  exact ⟨statusRejected b.status, step_writeCmd_run b e v ts hrun, statusRej_setRej b.status true hW,
    fun i hi => getLsbD_setRej b.status true i hi hW⟩

/-! ### Completion (R104) -/

/-- A running command whose outcome `r` has no element left to emit completes with what `r` says (R104). -/
theorem exec_completes (b : Block P) (e : Env P) (i : Instr) {r : CommandOutcome P.W}
    (hr : outcomeOf i b.eng.a b.eng.b = r) (hrun : b.eng.state = .run) (hj : b.eng.j = r.len) :
    ∃ b' : Block P, exec i ⟨P, b, e⟩ = .next ⟨P, b', e⟩ ∧
      Completed b b' (r.res.getD b.result) (r.ord.getD b.order) (errNumber r.err) r.ovf := by
  refine ⟨b.complete r, ?_, complete_completed b r⟩
  rw [exec_eq, hr, State.runCommand, engineStep_complete b r hrun hj]

/-- Settles O16: NOP emits nothing, so it completes at `j = 0`, and it keeps RESULT and ORDER (R106). -/
theorem nopCompletesAndKeepsTheResults : Obligations.NopCompletesAndKeepsTheResults :=
  fun _ b e hrun hj => exec_completes b e .nop (r := outcomeNop _) rfl hrun hj

end Sys2Proof.Machine

/-! PROOFS. The degree, the left shift and DEG (41_representation.md). -/

namespace Sys2Proof.Machine

variable {w : Nat}

/-! ### The degree (R120) -/

/-- Each set bit below `n` is at or below the highest one. -/
theorem le_degBelow {a : GF2Poly w} {i n : Nat} (hin : i < n) (hi : a.getLsbD i = true) : i ≤ degBelow a n := by
  induction n with
  | zero => exact absurd hin (Nat.not_lt_zero i)
  | succ n ih =>
    rw [degBelow_succ]
    split
    case isTrue => exact Nat.le_of_lt_succ hin
    case isFalse hn =>
      have hne : i ≠ n := by rintro rfl; exact hn hi
      exact ih (by omega)

/-- What the search answers is a set bit, or 0. -/
theorem getLsbD_degBelow_or_eq_zero (a : GF2Poly w) (n : Nat) :
    a.getLsbD (degBelow a n) = true ∨ degBelow a n = 0 := by
  induction n with
  | zero => exact .inr rfl
  | succ n ih =>
    rw [degBelow_succ]
    split
    case isTrue hn => exact .inl hn
    case isFalse => exact ih

theorem le_deg {a : GF2Poly w} {i : Nat} (hi : a.getLsbD i = true) : i ≤ deg a :=
  le_degBelow (BitVec.lt_of_getLsbD hi) hi

/-- No bit above the degree is set. -/
theorem getLsbD_of_deg_lt {a : GF2Poly w} {i : Nat} (hi : deg a < i) : a.getLsbD i = false :=
  Bool.eq_false_iff.2 fun hbit => absurd (le_deg hbit) (Nat.not_le_of_lt hi)

theorem getLsbD_deg_or_eq_zero (a : GF2Poly w) : a.getLsbD (deg a) = true ∨ deg a = 0 :=
  getLsbD_degBelow_or_eq_zero a w

/-- A nonzero polynomial's bit at its degree is set: where the degree is 0, the one bit left to be set is bit 0. -/
theorem getLsbD_deg {a : GF2Poly w} (ha : a ≠ 0#w) : a.getLsbD (deg a) = true := by
  obtain ⟨i, hi⟩ : ∃ i, a.getLsbD i = true := by
    by_contra hnone
    exact ha (BitVec.eq_of_getLsbD_eq fun i _ => by simpa using not_exists.1 hnone i)
  rcases getLsbD_deg_or_eq_zero a with hset | hzero
  · exact hset
  · have hi0 : i = deg a := by have := le_deg hi; omega
    rwa [← hi0]

@[simp] theorem deg_zero : deg 0#w = 0 := by
  rcases getLsbD_deg_or_eq_zero 0#w with hset | hzero
  · simp at hset
  · exact hzero

@[simp] theorem deg_one : deg 1#w = 0 := by
  rcases getLsbD_deg_or_eq_zero 1#w with hset | hzero
  · simp only [BitVec.getLsbD_one, Bool.and_eq_true, decide_eq_true_eq] at hset
    exact hset.2
  · exact hzero

theorem deg_le (a : GF2Poly w) : deg a ≤ w - 1 := degBelow_le a w

/-- Settles O26: the bit at the degree is set, none above it is, and the bound is that of the search. -/
theorem degreeIsTheHighestSetBit : Obligations.DegreeIsTheHighestSetBit :=
  fun _ a => ⟨fun ha => ⟨getLsbD_deg ha, fun _ => getLsbD_of_deg_lt⟩, fun ha => ha ▸ deg_zero, deg_le a, deg_one⟩

/-! ### The left shift (R121) -/

/-- Settles O27: each clause is `getLsbD_shl` at its positions; a shift by the width or more leaves no position. -/
theorem shiftMovesBitsUpAndDropsTheRest : Obligations.ShiftMovesBitsUpAndDropsTheRest := by
  intro w a k
  have hlow (i : Nat) (hi : i < k) : (shl a k).getLsbD i = false := by simp [getLsbD_shl, hi]
  refine ⟨fun i hki hiw => ?_, hlow, fun hwk => ?_⟩
  · rw [getLsbD_shl]
    simp [hiw, Nat.not_lt.2 hki]
  · refine BitVec.eq_of_getLsbD_eq fun i hi => ?_
    rw [hlow i (Nat.lt_of_lt_of_le hi hwk), BitVec.getLsbD_zero]

/-! ### DEG (R125) -/

/-- Settles O23: DEG emits nothing, so it completes at `j = 0` with the degree of operand A, and keeps ORDER. -/
theorem degCompletesWithTheHighestSetBit : Obligations.DegCompletesWithTheHighestSetBit := by
  intro P b e hrun hj
  obtain ⟨b', hexec, hcompleted⟩ := exec_completes b e .deg (r := outcomeDeg b.eng.a) rfl hrun hj
  exact ⟨b', deg b.eng.a, hexec, hcompleted, fun ha => ha ▸ deg_zero,
    fun ha => ⟨getLsbD_deg ha, fun _ => getLsbD_of_deg_lt⟩⟩

end Sys2Proof.Machine

/-! PROOFS. ADD, MUL and REM (42_arithmetic.md). A word is read as a polynomial of Mathlib over `ZMod 2`: there the full
product is the ring's product, and the rules on MUL and REM are facts of the polynomial ring. -/

namespace Sys2Proof.Machine

variable {w : Nat}

/-! ### ADD (R140, R141) -/

/-- Settles O17: ADD emits nothing, so it completes at `j = 0` with the exclusive OR, and it keeps ORDER. -/
theorem addCompletesWithTheExclusiveOr : Obligations.AddCompletesWithTheExclusiveOr :=
  fun _ b e hrun hj => exec_completes b e .add (r := outcomeAdd b.eng.a b.eng.b) rfl hrun hj

/-- Settles O28: ADD's result is the exclusive OR of words, which has these laws. -/
theorem addIsCommutativeAssociativeSelfInverse : Obligations.AddIsCommutativeAssociativeSelfInverse :=
  fun _ a b c =>
    ⟨congrArg some (BitVec.xor_comm a b), congrArg some (BitVec.xor_assoc a b c), congrArg some BitVec.xor_self,
      congrArg some BitVec.xor_zero⟩

/-! ### MUL's sums as R142 and R143 write them -/

/-- The sum over the set bits below `n + 1` is the one below `n` with the term of bit `n`. -/
theorem foldl_xor_filter_range_succ {v : Nat} (p : Nat → Bool) (term : Nat → BitVec v) (n : Nat) :
    ((List.range (n + 1)).filter p).foldl (fun acc i => acc ^^^ term i) 0#v =
      ((List.range n).filter p).foldl (fun acc i => acc ^^^ term i) 0#v ^^^ (if p n then term n else 0#v) := by
  rw [List.range_succ, List.filter_append, List.foldl_append]
  cases hp : p n <;> simp [hp]

/-- The model's product is `full` of R142. -/
theorem clmulFull_eq_fullProduct (a b : GF2Poly w) : clmulFull a b = fullProduct a b := by
  have hbelow (n : Nat) : clmulBelow a b n =
      ((List.range n).filter fun i => a.getLsbD i).foldl
        (fun acc i => acc ^^^ (b.setWidth (2 * w - 1)) <<< i) 0#(2 * w - 1) := by
    induction n with
    | zero => rfl
    | succ n ih => rw [clmulBelow_succ, foldl_xor_filter_range_succ, ih]
  exact hbelow w

/-- Truncation commutes with the shifts: what a shift of `full` moves past bit `w - 1` is not in `res`. -/
theorem setWidth_shiftLeft_setWidth (b : GF2Poly w) (k : Nat) :
    ((b.setWidth (2 * w - 1)) <<< k).setWidth w = shl b k := by
  refine BitVec.eq_of_getLsbD_eq fun i hi => ?_
  have hi' : i < 2 * w - 1 := by omega
  rw [getLsbD_shl]
  simp [hi, hi']

/-- MUL's result is the schoolbook sum (R143). -/
theorem clmul_eq_schoolbookSum (a b : GF2Poly w) : clmul a b = schoolbookSum a b := by
  have hbelow (n : Nat) : (clmulBelow a b n).setWidth w =
      ((List.range n).filter fun i => a.getLsbD i).foldl (fun acc i => acc ^^^ shl b i) 0#w := by
    induction n with
    | zero => simp
    | succ n ih =>
      rw [clmulBelow_succ, foldl_xor_filter_range_succ, BitVec.setWidth_xor, ih, apply_ite (BitVec.setWidth w),
        setWidth_shiftLeft_setWidth, BitVec.setWidth_zero]
  exact hbelow w

/-- Settles O18: MUL emits nothing, so it completes at `j = 0` with the two parts of the model's product, which is
`full`. -/
theorem mulCompletesWithTheTruncatedProduct : Obligations.MulCompletesWithTheTruncatedProduct := by
  intro P b e hrun hj
  rw [← clmulFull_eq_fullProduct]
  exact exec_completes b e .mul (r := outcomeMul b.eng.a b.eng.b) rfl hrun hj

/-! ### A word as a polynomial over GF(2) (R8) -/

/-- The polynomial a word stands for: bit `i` is the coefficient of `x^i` (R8). -/
noncomputable def toPoly (a : GF2Poly w) : Polynomial (ZMod 2) :=
  ∑ i ∈ Finset.range w, Polynomial.monomial i (if a.getLsbD i then 1 else 0)

theorem coeff_toPoly (a : GF2Poly w) (i : Nat) : (toPoly a).coeff i = if a.getLsbD i then 1 else 0 := by
  simp only [toPoly, Polynomial.finsetSum_coeff, Polynomial.coeff_monomial, Finset.sum_ite_eq', Finset.mem_range]
  split
  case isTrue => rfl
  case isFalse hi => simp [BitVec.getLsbD_of_ge a i (Nat.le_of_not_lt hi)]

theorem coeff_toPoly_ne_zero (a : GF2Poly w) (i : Nat) : (toPoly a).coeff i ≠ 0 ↔ a.getLsbD i = true := by
  rw [coeff_toPoly]
  cases a.getLsbD i <;> simp

theorem toPoly_injective : Function.Injective (toPoly (w := w)) := by
  intro a b hab
  refine BitVec.eq_of_getLsbD_eq fun i _ => Bool.eq_iff_iff.2 ?_
  rw [← coeff_toPoly_ne_zero, ← coeff_toPoly_ne_zero, hab]

@[simp] theorem toPoly_zero : toPoly 0#w = 0 := by
  ext i
  simp [coeff_toPoly]

theorem toPoly_eq_zero {a : GF2Poly w} : toPoly a = 0 ↔ a = 0#w := by
  rw [← toPoly_zero (w := w), toPoly_injective.eq_iff]

/-- Exclusive OR is the ring's sum. -/
@[simp] theorem toPoly_xor (a b : GF2Poly w) : toPoly (a ^^^ b) = toPoly a + toPoly b := by
  ext i
  simp only [Polynomial.coeff_add, coeff_toPoly, BitVec.getLsbD_xor]
  cases a.getLsbD i <;> cases b.getLsbD i <;> decide

/-- A wider word stands for the same polynomial. -/
theorem toPoly_setWidth {v : Nat} (hwv : w ≤ v) (a : GF2Poly w) : toPoly (a.setWidth v) = toPoly a := by
  ext i
  have hbit : (a.setWidth v).getLsbD i = a.getLsbD i := by
    rw [BitVec.getLsbD_setWidth, Bool.and_eq_right_iff_imp]
    intro hi
    have := BitVec.lt_of_getLsbD hi
    simp; omega
  rw [coeff_toPoly, coeff_toPoly, hbit]

/-- A left shift that loses no set bit multiplies by `x^k` (R121). -/
theorem toPoly_shl {a : GF2Poly w} {k : Nat} (hfit : ∀ i, a.getLsbD i = true → i + k < w) :
    toPoly (shl a k) = toPoly a * Polynomial.X ^ k := by
  ext i
  rw [Polynomial.coeff_mul_X_pow', coeff_toPoly, coeff_toPoly, getLsbD_shl]
  cases hbit : a.getLsbD (i - k) with
  | false => simp
  | true =>
    have := hfit (i - k) hbit
    by_cases hik : k ≤ i
    · have hi : i < w := by omega
      simp [hik, hi]
    · simp [hik, Nat.lt_of_not_le hik]

/-- The word with bit `k` alone is `x^k`. -/
theorem toPoly_twoPow {k : Nat} (hk : k < w) : toPoly (BitVec.twoPow w k) = Polynomial.X ^ k := by
  ext i
  rw [coeff_toPoly, BitVec.getLsbD_twoPow, Polynomial.coeff_X_pow]
  simp [hk, eq_comm]

theorem natDegree_toPoly (a : GF2Poly w) : (toPoly a).natDegree = deg a := by
  by_cases ha : a = 0#w
  · simp [ha]
  · refine Polynomial.natDegree_eq_of_le_of_coeff_ne_zero ?_ ((coeff_toPoly_ne_zero a _).2 (getLsbD_deg ha))
    refine Polynomial.natDegree_le_iff_coeff_eq_zero.2 fun i hi => ?_
    simp [coeff_toPoly, getLsbD_of_deg_lt hi]

theorem monic_toPoly {b : GF2Poly w} (hb : b ≠ 0#w) : (toPoly b).Monic := by
  rw [Polynomial.Monic, Polynomial.leadingCoeff, natDegree_toPoly, coeff_toPoly, if_pos (getLsbD_deg hb)]

/-! ### The product (R142 to R144) -/

/-- The sum of the first `n` partial products is the product of `a`'s low `n` bits with `b`: no shift of `b` by less
than `w` leaves the `2w - 1` bits. -/
theorem toPoly_clmulBelow (a b : GF2Poly w) {n : Nat} (hn : n ≤ w) :
    toPoly (clmulBelow a b n) =
      (∑ i ∈ Finset.range n, Polynomial.monomial i (if a.getLsbD i then 1 else 0)) * toPoly b := by
  induction n with
  | zero => simp
  | succ n ih =>
    have hfit (i : Nat) (hi : (b.setWidth (2 * w - 1)).getLsbD i = true) : i + n < 2 * w - 1 := by
      rw [BitVec.getLsbD_setWidth, Bool.and_eq_true] at hi
      have := BitVec.lt_of_getLsbD hi.2
      omega
    have hterm : toPoly ((b.setWidth (2 * w - 1)) <<< n) = toPoly b * Polynomial.X ^ n := by
      rw [← toPoly_setWidth (v := 2 * w - 1) (by omega) b]
      exact toPoly_shl hfit
    rw [clmulBelow_succ, toPoly_xor, ih (by omega), Finset.sum_range_succ, add_mul]
    cases a.getLsbD n with
    | false => simp
    | true => simp [hterm, Polynomial.monomial_one_right_eq_X_pow, mul_comm]

/-- The full product is the ring's product (R142). -/
@[simp] theorem toPoly_clmulFull (a b : GF2Poly w) : toPoly (clmulFull a b) = toPoly a * toPoly b :=
  toPoly_clmulBelow a b le_rfl

theorem clmulFull_comm (a b : GF2Poly w) : clmulFull a b = clmulFull b a :=
  toPoly_injective (by simp [mul_comm])

theorem clmulFull_xor (a b c : GF2Poly w) : clmulFull a (b ^^^ c) = clmulFull a b ^^^ clmulFull a c :=
  toPoly_injective (by simp [mul_add])

theorem clmulFull_ne_zero (a b : GF2Poly w) : clmulFull a b ≠ 0#(2 * w - 1) ↔ a ≠ 0#w ∧ b ≠ 0#w := by
  simp only [ne_eq, ← toPoly_eq_zero, toPoly_clmulFull, mul_eq_zero, not_or]

/-- Over a field the degrees of the factors add up. -/
theorem deg_clmulFull {a b : GF2Poly w} (ha : a ≠ 0#w) (hb : b ≠ 0#w) :
    deg (clmulFull a b) = deg a + deg b := by
  rw [← natDegree_toPoly, toPoly_clmulFull, (monic_toPoly ha).natDegree_mul (monic_toPoly hb), natDegree_toPoly,
    natDegree_toPoly]

/-- A right shift leaves something exactly when it does not pass the degree. -/
theorem ushiftRight_ne_zero (a : GF2Poly w) (k : Nat) : a >>> k ≠ 0#w ↔ a ≠ 0#w ∧ k ≤ deg a := by
  constructor
  · intro hshift
    have hbit := getLsbD_deg hshift
    rw [BitVec.getLsbD_ushiftRight] at hbit
    exact ⟨by rintro rfl; simp at hbit, by have := le_deg hbit; omega⟩
  · rintro ⟨ha, hk⟩ hshift
    have hbit : (a >>> k).getLsbD (deg a - k) = true := by
      rw [BitVec.getLsbD_ushiftRight, Nat.add_sub_cancel' hk, getLsbD_deg ha]
    simp [hshift] at hbit

/-- OVF by degree (R143). -/
theorem clmulOvf_iff (a b : GF2Poly w) : clmulOvf a b = true ↔ a ≠ 0#w ∧ b ≠ 0#w ∧ w ≤ deg a + deg b := by
  rw [clmulOvf, decide_eq_true_iff, ushiftRight_ne_zero, clmulFull_ne_zero, and_assoc]
  exact and_congr_right fun ha => and_congr_right fun hb => by rw [deg_clmulFull ha hb]

/-- Settles O29: the sum is the product cut term by term, and OVF is read off the degree of the whole product. -/
theorem mulOverflowsExactlyWhenTheDegreesReachTheWidth :
    Obligations.MulOverflowsExactlyWhenTheDegreesReachTheWidth :=
  fun _ a b => ⟨congrArg some (clmul_eq_schoolbookSum a b), clmulOvf_iff a b⟩

/-- Settles O30: `res` and `ovf` are functions of the full product, which commutes and distributes. -/
theorem mulCommutesAndDistributes : Obligations.MulCommutesAndDistributes := by
  intro w a b c
  have hres : clmul a b = clmul b a := by rw [clmul, clmul, clmulFull_comm]
  have hovf : clmulOvf a b = clmulOvf b a := by rw [clmulOvf, clmulOvf, clmulFull_comm]
  refine ⟨congrArg some hres, hovf, ?_⟩
  rw [clmul, clmul, clmul, clmulFull_xor, BitVec.setWidth_xor]

/-! ### One pass of REM's loop (R146, R148) -/

theorem ne_zero_of_one_le_deg {b : GF2Poly w} (hb : 1 ≤ deg b) : b ≠ 0#w := by
  rintro rfl
  simp at hb

/-- `b` moved up by `k` has its degree at `deg b + k`, while that is inside the word. -/
theorem toPoly_shl_of_deg {b : GF2Poly w} {k : Nat} (hk : deg b + k < w) :
    toPoly (shl b k) = toPoly b * Polynomial.X ^ k :=
  toPoly_shl fun i hi => by have := le_deg hi; omega

/-- One pass of the loop of R146: `b`, moved up to `r`'s top bit, taken away from `r`. -/
def remPass (b r : GF2Poly w) : GF2Poly w := r ^^^ shl b (deg r - deg b)

theorem remLoop_pass {b r : GF2Poly w} (n : Nat) (h : r ≠ 0#w ∧ deg b ≤ deg r) :
    remLoop b (n + 1) r = remLoop b n (remPass b r) :=
  if_pos h

/-- A pass sets no bit above `r`'s top bit. -/
theorem getLsbD_remPass_of_lt {b r : GF2Poly w} {i : Nat} (hle : deg b ≤ deg r) (hi : deg r < i) :
    (remPass b r).getLsbD i = false := by
  rw [remPass, BitVec.getLsbD_xor, getLsbD_shl, getLsbD_of_deg_lt hi, getLsbD_of_deg_lt (a := b) (by omega)]
  simp

/-- A pass clears `r`'s top bit: the shift has brought `b`'s top bit there. -/
theorem getLsbD_remPass_deg {b r : GF2Poly w} (hb : b ≠ 0#w) (hr : r ≠ 0#w) (hle : deg b ≤ deg r) :
    (remPass b r).getLsbD (deg r) = false := by
  have htop : deg r < w := BitVec.lt_of_getLsbD (getLsbD_deg hr)
  have hshift : ¬ deg r < deg r - deg b := by omega
  rw [remPass, BitVec.getLsbD_xor, getLsbD_shl, Nat.sub_sub_self hle, getLsbD_deg hr, getLsbD_deg hb]
  simp [htop, hshift]

/-- So the degree falls, or nothing is left (R148). -/
theorem remPass_eq_zero_or_deg_lt {b r : GF2Poly w} (hb : b ≠ 0#w) (hr : r ≠ 0#w) (hle : deg b ≤ deg r) :
    remPass b r = 0#w ∨ deg (remPass b r) < deg r := by
  refine or_iff_not_imp_left.2 fun hne => Nat.lt_of_not_le fun hge => ?_
  have htop := getLsbD_deg hne
  rcases Nat.eq_or_lt_of_le hge with heq | hlt
  · rw [← heq, getLsbD_remPass_deg hb hr hle] at htop
    cases htop
  · rw [getLsbD_remPass_of_lt hle hlt] at htop
    cases htop

/-- The passes still needed fall by one with each pass. -/
theorem deg_remPass_bound {b r : GF2Poly w} {n : Nat} (hb : 1 ≤ deg b) (h : r ≠ 0#w ∧ deg b ≤ deg r)
    (hn : deg r + 1 - deg b ≤ n + 1) : deg (remPass b r) + 1 - deg b ≤ n := by
  rcases remPass_eq_zero_or_deg_lt (ne_zero_of_one_le_deg hb) h.1 h.2 with hzero | hlt
  · rw [hzero, deg_zero]
    omega
  · omega

/-! ### The loop's bound (R148) -/

/-- Within the bound the loop reaches the end of its condition. -/
theorem remLoop_exits {b : GF2Poly w} (hb : 1 ≤ deg b) {n : Nat} {r : GF2Poly w} (hn : deg r + 1 - deg b ≤ n) :
    ¬(remLoop b n r ≠ 0#w ∧ deg b ≤ deg (remLoop b n r)) := by
  induction n generalizing r with
  | zero =>
    rintro ⟨-, hle⟩
    rw [remLoop_zero] at hle
    omega
  | succ n ih =>
    by_cases h : r ≠ 0#w ∧ deg b ≤ deg r
    · rw [remLoop_pass n h]
      exact ih (deg_remPass_bound hb h hn)
    · rwa [remLoop_done b r (n + 1) h]

/-- Passes allowed after the loop has ended change nothing. -/
theorem remLoop_succ_of_exited {b : GF2Poly w} {n : Nat} {r : GF2Poly w}
    (h : ¬(remLoop b n r ≠ 0#w ∧ deg b ≤ deg (remLoop b n r))) : remLoop b (n + 1) r = remLoop b n r := by
  induction n generalizing r with
  | zero => exact remLoop_done b r 1 h
  | succ n ih =>
    by_cases hr : r ≠ 0#w ∧ deg b ≤ deg r
    · rw [remLoop_pass n hr] at h ⊢
      rw [remLoop_pass (n + 1) hr]
      exact ih h
    · rw [remLoop_done b r _ hr, remLoop_done b r _ hr]

/-- Every bound that is large enough gives the result of the smallest one. -/
theorem remLoop_eq_of_bound {b r : GF2Poly w} (hb : 1 ≤ deg b) {n : Nat} (hn : deg r + 1 - deg b ≤ n) :
    remLoop b n r = remLoop b (deg r + 1 - deg b) r := by
  induction n, hn using Nat.le_induction with
  | base => rfl
  | succ n hn ih => rw [remLoop_succ_of_exited (remLoop_exits hb hn), ih]

/-- The bound of `polyRem` is large enough. -/
theorem passes_le_width (a b : GF2Poly w) (hb : 1 ≤ deg b) : deg a + 1 - deg b ≤ w - 1 := by
  have := deg_le a
  omega

theorem polyRem_exits (a : GF2Poly w) {b : GF2Poly w} (hb : 1 ≤ deg b) :
    ¬(polyRem a b ≠ 0#w ∧ deg b ≤ deg (polyRem a b)) :=
  remLoop_exits hb (Nat.le_trans (passes_le_width a b hb) (Nat.sub_le w 1))

/-- Settles O32: a pass clears the top bit and sets none above it, so the degree counts the passes still needed. -/
theorem remainderLoopEndsWithinItsBound : Obligations.RemainderLoopEndsWithinItsBound := by
  intro w a b hb
  have hb0 : b ≠ 0#w := ne_zero_of_one_le_deg hb
  have hwidth : deg a + 1 - deg b ≤ w := Nat.le_trans (passes_le_width a b hb) (Nat.sub_le w 1)
  refine ⟨fun r hr hle => ⟨getLsbD_remPass_deg hb0 hr hle, fun i => getLsbD_remPass_of_lt hle,
    remPass_eq_zero_or_deg_lt hb0 hr hle⟩, passes_le_width a b hb, fun n hn => ?_, polyRem_exits a hb⟩
  rw [polyRem, remLoop_eq_of_bound hb hn, remLoop_eq_of_bound hb hwidth]

/-! ### REM's result is the remainder (R147) -/

/-- Each pass takes a multiple of `b` away, so what the loop leaves differs from `r` by a multiple of `b`. -/
theorem exists_quotient_remLoop (b : GF2Poly w) (n : Nat) (r : GF2Poly w) :
    ∃ q : GF2Poly w, toPoly r = toPoly q * toPoly b + toPoly (remLoop b n r) := by
  induction n generalizing r with
  | zero => exact ⟨0#w, by simp⟩
  | succ n ih =>
    by_cases h : r ≠ 0#w ∧ deg b ≤ deg r
    · obtain ⟨q, hq⟩ := ih (remPass b r)
      have htop : deg r < w := BitVec.lt_of_getLsbD (getLsbD_deg h.1)
      refine ⟨q ^^^ BitVec.twoPow w (deg r - deg b), ?_⟩
      calc toPoly r
          = toPoly (remPass b r) + toPoly (shl b (deg r - deg b)) := by
            rw [← toPoly_xor, remPass, BitVec.xor_assoc, BitVec.xor_self, BitVec.xor_zero]
        _ = toPoly q * toPoly b + toPoly (remLoop b n (remPass b r)) +
              toPoly b * Polynomial.X ^ (deg r - deg b) := by rw [hq, toPoly_shl_of_deg (by omega)]
        _ = toPoly (q ^^^ BitVec.twoPow w (deg r - deg b)) * toPoly b + toPoly (remLoop b (n + 1) r) := by
            rw [toPoly_xor, toPoly_twoPow (by omega), remLoop_pass n h]
            ring
    · exact ⟨0#w, by simp [remLoop_done b r (n + 1) h]⟩

/-- R147's division of polynomials, said in the polynomial ring. -/
theorem isRemainder_iff (a b r : GF2Poly w) :
    IsRemainder a b r ↔
      (∃ q : GF2Poly w, toPoly a = toPoly q * toPoly b + toPoly r) ∧ (r = 0#w ∨ deg r < deg b) := by
  have hwide : w ≤ 2 * w - 1 := by omega
  refine and_congr_left fun _ => exists_congr fun q => ?_
  rw [← toPoly_injective.eq_iff, ← clmulFull_eq_fullProduct, toPoly_xor, toPoly_clmulFull, toPoly_setWidth hwide,
    toPoly_setWidth hwide]

theorem degree_toPoly_lt {b r : GF2Poly w} (hb : b ≠ 0#w) (h : r = 0#w ∨ deg r < deg b) :
    (toPoly r).degree < (toPoly b).degree := by
  rcases h with rfl | hlt
  · rw [toPoly_zero, Polynomial.degree_zero, bot_lt_iff_ne_bot, Polynomial.degree_ne_bot, ne_eq, toPoly_eq_zero]
    exact hb
  · exact Polynomial.degree_lt_degree (by rwa [natDegree_toPoly, natDegree_toPoly])

/-- A remainder is the ring's own, so there is one at most. -/
theorem IsRemainder.toPoly_eq {a b r : GF2Poly w} (hb : b ≠ 0#w) (h : IsRemainder a b r) :
    toPoly r = toPoly a %ₘ toPoly b := by
  obtain ⟨⟨q, hq⟩, hreduced⟩ := (isRemainder_iff a b r).1 h
  have hdiv : toPoly r + toPoly b * toPoly q = toPoly a := by rw [hq]; ring
  exact (Polynomial.div_modByMonic_unique _ _ (monic_toPoly hb) ⟨hdiv, degree_toPoly_lt hb hreduced⟩).2.symm

theorem IsRemainder.unique {a b r r' : GF2Poly w} (hb : b ≠ 0#w) (h : IsRemainder a b r) (h' : IsRemainder a b r') :
    r = r' :=
  toPoly_injective ((h.toPoly_eq hb).trans (h'.toPoly_eq hb).symm)

theorem isRemainder_polyRem (a : GF2Poly w) {b : GF2Poly w} (hb : 1 ≤ deg b) : IsRemainder a b (polyRem a b) := by
  refine (isRemainder_iff a b _).2 ⟨exists_quotient_remLoop b w a, ?_⟩
  rcases not_and_or.1 (polyRem_exits a hb) with hzero | hlt
  · exact .inl (not_not.1 hzero)
  · exact .inr (Nat.lt_of_not_le hlt)

/-- Settles O31: the loop's result is a remainder, and the polynomial ring over GF(2) has one remainder only. -/
theorem remainderExistsAndIsUnique : Obligations.RemainderExistsAndIsUnique := by
  intro w a b hb
  have hrem := isRemainder_polyRem a hb
  refine ⟨?_, hrem, fun r hr => hr.unique (ne_zero_of_one_le_deg hb) hrem⟩
  rw [outcomeRem, if_neg (Nat.not_lt.2 hb)]
  rfl

end Sys2Proof.Machine

/-! PROOFS. The order engine, ISPRIM and ENUM (43_order_engine.md). The search is a search of a list for an exponent of
1, so its failure is a fact about the powers; and for `p[0] = 1` the step can be undone, so the powers, which take
fewer than `2^d` values, come back to 1. -/

namespace Sys2Proof.Machine

variable {w : Nat} {p : GF2Poly w}

/-! ### The engine's step, bit by bit (R160) -/

/-- A step is the shift, with `p` taken away when the shift reaches bit `deg p`. -/
theorem getLsbD_xstep (c p : GF2Poly w) (i : Nat) :
    (xstep c p).getLsbD i = ((shl c 1).getLsbD i ^^ ((shl c 1).getLsbD (deg p) && p.getLsbD i)) := by
  unfold xstep
  cases (shl c 1).getLsbD (deg p) <;> simp

/-- The constant term of a step: the shift leaves it clear, so it is `p`'s own exactly when `p` is taken away. -/
theorem getLsbD_xstep_zero (c p : GF2Poly w) :
    (xstep c p).getLsbD 0 = ((shl c 1).getLsbD (deg p) && p.getLsbD 0) := by
  simp [getLsbD_xstep, getLsbD_shl]

/-- A shift by one place moves the degree up by one at most. -/
theorem getLsbD_shl_one_of_lt {c : GF2Poly w} {i : Nat} (hi : deg c + 1 < i) : (shl c 1).getLsbD i = false := by
  rw [getLsbD_shl, getLsbD_of_deg_lt (a := c) (by omega), Bool.and_false]

/-- A step that stays below `deg p` is the shift alone. -/
theorem xstep_eq_shl {c : GF2Poly w} (hc : deg c + 1 < deg p) : xstep c p = shl c 1 :=
  if_neg (by simp [getLsbD_shl_one_of_lt hc])

theorem xstep_zero (hd : 2 ≤ deg p) : xstep 0#w p = 0#w := by
  rw [xstep_eq_shl (by rw [deg_zero]; omega), shl, BitVec.zero_shiftLeft]

/-- A step clears bit `deg p` and, on a reduced `c`, sets no bit above it: its result is reduced again. -/
theorem deg_xstep_lt {c : GF2Poly w} (hp : 1 ≤ deg p) (hc : deg c < deg p) : deg (xstep c p) < deg p := by
  have hhigh (i : Nat) (hi : deg p ≤ i) : (xstep c p).getLsbD i = false := by
    rw [getLsbD_xstep]
    rcases Nat.eq_or_lt_of_le hi with rfl | hlt
    · simp [getLsbD_deg (ne_zero_of_one_le_deg hp)]
    · simp [getLsbD_shl_one_of_lt (Nat.lt_of_le_of_lt hc hlt), getLsbD_of_deg_lt hlt]
  rcases getLsbD_deg_or_eq_zero (xstep c p) with hset | hzero
  · refine Nat.lt_of_not_le fun hle => ?_
    rw [hhigh _ hle] at hset
    cases hset
  · omega

/-- A shift by one place loses nothing of a word with room for it. -/
theorem shl_one_inj {a b : GF2Poly w} (ha : deg a + 1 < w) (hb : deg b + 1 < w) (h : shl a 1 = shl b 1) : a = b := by
  have hpoly : toPoly a * Polynomial.X ^ 1 = toPoly b * Polynomial.X ^ 1 := by
    rw [← toPoly_shl_of_deg ha, ← toPoly_shl_of_deg hb, h]
  exact toPoly_injective (mul_right_cancel₀ (pow_ne_zero 1 Polynomial.X_ne_zero) hpoly)

/-- For `p[0] = 1` a step on reduced words can be undone: its constant term says whether `p` was taken away. -/
theorem xstep_inj {a b : GF2Poly w} (h0 : p.getLsbD 0 = true) (ha : deg a < deg p) (hb : deg b < deg p)
    (h : xstep a p = xstep b p) : a = b := by
  have hwidth := deg_le p
  have hbranch : (shl a 1).getLsbD (deg p) = (shl b 1).getLsbD (deg p) := by
    simpa [getLsbD_xstep_zero, h0] using congrArg (fun c => c.getLsbD 0) h
  refine shl_one_inj (by omega) (by omega) (BitVec.eq_of_getLsbD_eq fun i _ => ?_)
  simpa [getLsbD_xstep, hbranch] using congrArg (fun c => c.getLsbD i) h

/-! ### The powers of `x` (R161) -/

theorem width_ne_zero_of_deg (hp : 1 ≤ deg p) : w ≠ 0 := by
  have := deg_le p
  omega

theorem one_ne_zero_of_deg (hp : 1 ≤ deg p) : 1#w ≠ 0#w :=
  fun h => width_ne_zero_of_deg hp (BitVec.one_eq_zero_iff.1 h)

@[simp] theorem power_zero (p : GF2Poly w) : power p 0 = 1#w := rfl

theorem shl_one_one : shl 1#w 1 = polyX w := by
  apply BitVec.eq_of_toNat_eq
  show (BitVec.twoPow w 1).toNat = (2#w).toNat
  simp

/-- From 1 on, each power is a step from the one before: the first step, from 1, needs no reduction. -/
theorem power_succ (hd : 2 ≤ deg p) (n : Nat) : power p (n + 1) = xstep (power p n) p := by
  cases n with
  | zero => rw [power_zero, xstep_eq_shl (by rw [deg_one]; omega), shl_one_one, power_one]
  | succ n => exact power_succ_succ p n

theorem deg_power_lt (hd : 2 ≤ deg p) (n : Nat) : deg (power p n) < deg p := by
  induction n with
  | zero =>
    rw [power_zero, deg_one]
    omega
  | succ n ih =>
    rw [power_succ hd]
    exact deg_xstep_lt (by omega) ih

/-- With no constant term in `p`, no power has one, and so none is 1. -/
theorem power_ne_one (hd : 2 ≤ deg p) (h0 : p.getLsbD 0 = false) {n : Nat} (hn : 1 ≤ n) : power p n ≠ 1#w := by
  obtain ⟨m, rfl⟩ := Nat.exists_eq_add_of_le' hn
  have hw : w ≠ 0 := width_ne_zero_of_deg (Nat.le_of_succ_le hd)
  have hbit : (power p (m + 1)).getLsbD 0 = false := by
    rw [power_succ hd, getLsbD_xstep_zero, h0, Bool.and_false]
  intro hone
  rw [hone, BitVec.getLsbD_one] at hbit
  simp [Nat.pos_of_ne_zero hw] at hbit

/-- Steps made after the same power can be undone together. -/
theorem power_cancel (hd : 2 ≤ deg p) (h0 : p.getLsbD 0 = true) {n k : Nat} (h : power p n = power p (n + k)) :
    power p k = 1#w := by
  induction n with
  | zero => rw [Nat.zero_add] at h; exact h.symm
  | succ n ih =>
    rw [Nat.add_right_comm, power_succ hd, power_succ hd] at h
    exact ih (xstep_inj h0 (deg_power_lt hd _) (deg_power_lt hd _) h)

/-- For `p[0] = 1` no power is 0: only 0 steps to 0, and the sequence starts at 1. -/
theorem power_ne_zero (hd : 2 ≤ deg p) (h0 : p.getLsbD 0 = true) (n : Nat) : power p n ≠ 0#w := by
  induction n with
  | zero => exact one_ne_zero_of_deg (Nat.le_of_succ_le hd)
  | succ n ih =>
    intro h
    rw [power_succ hd, ← xstep_zero hd] at h
    exact ih (xstep_inj h0 (deg_power_lt hd n) (by rw [deg_zero]; omega) h)

theorem toNat_lt_of_deg_lt {a : GF2Poly w} {n : Nat} (h : deg a < n) : a.toNat < 2 ^ n :=
  Nat.lt_pow_two_of_testBit _ fun _ hi => getLsbD_of_deg_lt (Nat.lt_of_lt_of_le h hi)

/-- For `p[0] = 1` some power within the bound is 1: among the first `2^d` powers, from 1 on, two are the same, since
there are only `2^d - 1` nonzero reduced words. -/
theorem exists_power_eq_one (hd : 2 ≤ deg p) (h0 : p.getLsbD 0 = true) :
    ∃ k, 1 ≤ k ∧ k ≤ groupOrder p ∧ power p k = 1#w := by
  have hcard : (Finset.Ico 1 (2 ^ deg p)).card < (Finset.range (2 ^ deg p)).card := by
    simp
  have hmaps (n : Nat) (_ : n ∈ Finset.range (2 ^ deg p)) : (power p n).toNat ∈ Finset.Ico 1 (2 ^ deg p) := by
    have hpos : (power p n).toNat ≠ 0 := fun h => power_ne_zero hd h0 n (BitVec.eq_of_toNat_eq h)
    exact Finset.mem_Ico.2 ⟨Nat.pos_of_ne_zero hpos, toNat_lt_of_deg_lt (deg_power_lt hd n)⟩
  obtain ⟨i, hi, j, hj, hij, heq⟩ := Finset.exists_ne_map_eq_of_card_lt_of_maps_to hcard hmaps
  wlog hlt : i < j generalizing i j
  · exact this j hj i hi hij.symm heq.symm (by omega)
  obtain ⟨k, rfl⟩ := Nat.exists_eq_add_of_le hlt.le
  rw [Finset.mem_range] at hj
  exact ⟨k, by omega, by rw [groupOrder]; omega, power_cancel hd h0 (BitVec.eq_of_toNat_eq heq)⟩

/-! ### The order search (R162, R164) -/

/-- The loop, from a power and its exponent, looks for the first exponent up to the bound whose power is 1. -/
theorem ordLoop_eq_find (p : GF2Poly w) {f n : Nat} (h : n + f = groupOrder p) :
    ordLoop p f (power p (n + 1)) (n + 1) = (List.range' (n + 1) f).find? fun m => power p m = 1#w := by
  induction f generalizing n with
  | zero => rfl
  | succ f ih =>
    rw [ordLoop_succ, List.range'_succ, List.find?_cons]
    by_cases hone : power p (n + 1) = 1#w
    · simp [hone]
    · have hnext := ih (n := n + 1) (by omega)
      by_cases hlast : n + 1 = groupOrder p
      · obtain rfl : f = 0 := by omega
        simp [hone, ← hlast]
      · simpa [hone, hlast, ← power_succ_succ] using hnext

theorem ordSearch_eq_find (p : GF2Poly w) :
    ordSearch p = (List.range' 1 (groupOrder p)).find? fun m => power p m = 1#w :=
  ordLoop_eq_find p (Nat.zero_add _)

/-- What the search finds: the smallest exponent within the bound whose power is 1 (R162). -/
theorem ordSearch_eq_some_iff {k : Nat} :
    ordSearch p = some k ↔
      (1 ≤ k ∧ k ≤ groupOrder p) ∧ power p k = 1#w ∧ ∀ m, 1 ≤ m → m < k → power p m ≠ 1#w := by
  rw [ordSearch_eq_find, List.find?_range'_eq_some, List.mem_range'_1]
  simp only [decide_eq_true_eq, Bool.not_eq_true', decide_eq_false_iff_not]
  rw [and_left_comm, Nat.lt_one_add_iff]

/-- The search fails where no power within the bound is 1 (R162). -/
theorem ordSearch_eq_none_iff : ordSearch p = none ↔ ∀ m, 1 ≤ m → m ≤ groupOrder p → power p m ≠ 1#w := by
  simp [ordSearch_eq_find, Nat.lt_one_add_iff]

/-- The search fails exactly when `p` has no constant term (R164). -/
theorem ordSearch_eq_none_iff_getLsbD (hd : 2 ≤ deg p) : ordSearch p = none ↔ p.getLsbD 0 = false := by
  rw [ordSearch_eq_none_iff]
  constructor
  · intro hnone
    by_contra h0
    obtain ⟨k, h1, hle, hone⟩ := exists_power_eq_one hd (Bool.eq_true_of_not_eq_false h0)
    exact hnone k h1 hle hone
  · exact fun h0 m h1 _ => power_ne_one hd h0 h1

/-- Settles O36: the first clause is R164; the second says that the search does not fail, and what it finds is within
its bound. -/
theorem orderExistsExactlyWhenTheConstantTermIsOne : Obligations.OrderExistsExactlyWhenTheConstantTermIsOne := by
  intro w p hd
  have hnone := ordSearch_eq_none_iff_getLsbD hd
  refine ⟨hnone, fun ⟨k, _, hk⟩ => ?_, fun h0 => ?_⟩
  · rw [← Bool.not_eq_false, ← hnone, hk]
    exact Option.some_ne_none k
  · have hsome : ordSearch p ≠ none := by simp [hnone, h0]
    obtain ⟨k, hk⟩ := Option.ne_none_iff_exists'.1 hsome
    exact ⟨k, (ordSearch_eq_some_iff.1 hk).1.2, hk⟩

/-! ### ISPRIM (R163) -/

theorem outcomeIsprim_of_deg_lt (hd : deg p < 2) :
    outcomeIsprim p = .quiet (some 0#w) (some 0#w) .none false :=
  if_pos hd

theorem outcomeIsprim_of_some (hd : 2 ≤ deg p) {k : Nat} (hk : ordSearch p = some k) :
    outcomeIsprim p =
      .quiet (some (if k = 2 ^ deg p - 1 then 1#w else 0#w)) (some (BitVec.ofNat w k)) .none false := by
  rw [outcomeIsprim, if_neg (Nat.not_lt.2 hd), hk]

theorem outcomeIsprim_of_none (hd : 2 ≤ deg p) (hk : ordSearch p = none) :
    outcomeIsprim p = .quiet (some 0#w) (some 0#w) .orderNotFound false := by
  rw [outcomeIsprim, if_neg (Nat.not_lt.2 hd), hk]

/-- ISPRIM emits nothing. -/
theorem outcomeIsprim_len (p : GF2Poly w) : (outcomeIsprim p).len = 0 := by
  unfold outcomeIsprim
  split
  · rfl
  · split <;> rfl

/-- Settles O20: ISPRIM emits nothing, so it completes at `j = 0` with its outcome, and with `p[0] = 0` the search has
failed (R164). -/
theorem isprimCompletesWithTheOrder : Obligations.IsprimCompletesWithTheOrder := by
  intro P b e hrun hj
  obtain ⟨b', hexec, hdone⟩ :=
    exec_completes b e .isprim (r := outcomeIsprim b.eng.a) rfl hrun (hj.trans (outcomeIsprim_len _).symm)
  have hnone (hd : 2 ≤ deg b.eng.a) (hk : ordSearch b.eng.a = none) : Completed b b' 0#P.W 0#P.W 4#4 false := by
    rw [outcomeIsprim_of_none hd hk] at hdone
    exact hdone
  refine ⟨b', hexec, fun hd => ?_, fun hd k hk => ?_, hnone,
    fun hd h0 => hnone hd ((ordSearch_eq_none_iff_getLsbD hd).2 h0)⟩
  · rw [outcomeIsprim_of_deg_lt hd] at hdone
    exact hdone
  · rw [outcomeIsprim_of_some hd hk] at hdone
    exact hdone

/-! ### ENUM (R170, R171) -/

theorem outcomeEnum_of_some (hd : 2 ≤ deg p) {k : Nat} (hk : ordSearch p = some k) :
    outcomeEnum p =
      { len := k + 1, elem := elemAt p, res := some (BitVec.ofNat w (k + 1)), ord := some (BitVec.ofNat w k),
        err := .none, ovf := false } := by
  rw [outcomeEnum, if_neg (Nat.not_lt.2 hd), hk]
  rfl

theorem outcomeEnum_of_none (hd : 2 ≤ deg p) (hk : ordSearch p = none) :
    outcomeEnum p =
      { len := 2 ^ deg p, elem := elemAt p, res := some (BitVec.ofNat w (2 ^ deg p)), ord := some 0#w,
        err := .orderNotFound, ovf := false } := by
  rw [outcomeEnum, if_neg (Nat.not_lt.2 hd), hk]
  rfl

/-- Two elements or more of `Elems(p)`: 0, 1 and then the powers (R170). -/
theorem map_elemAt_range (p : GF2Poly w) (n : Nat) :
    (List.range (n + 2)).map (elemAt p) = 0#w :: 1#w :: (List.range n).map fun i => power p (i + 1) := by
  simp [List.range_succ_eq_map, Function.comp_def]

/-- A sequence of `Elems(p)` with at least two elements, by its length (R170). -/
theorem emits_elemAt {r : CommandOutcome w} (helem : r.elem = elemAt p) (hlen : 2 ≤ r.len) :
    r.emits.length = r.len ∧ r.emits = 0#w :: 1#w :: (List.range (r.len - 2)).map fun n => power p (n + 1) := by
  refine ⟨by simp [CommandOutcome.emits], ?_⟩
  rw [CommandOutcome.emits, helem, ← map_elemAt_range, Nat.sub_add_cancel hlen]

/-- Settles O38: both lengths are at least 2, the order being at least 1 and `2^d` at least 4. -/
theorem enumEmitsZeroOneAndThePowers : Obligations.EnumEmitsZeroOneAndThePowers := by
  intro w p hd
  refine ⟨fun k hk => ?_, fun hk => ?_⟩
  · obtain ⟨⟨hpos, -⟩, -⟩ := ordSearch_eq_some_iff.1 hk
    rw [outcomeEnum_of_some hd hk]
    exact emits_elemAt rfl (Nat.succ_le_succ hpos)
  · rw [outcomeEnum_of_none hd hk]
    exact emits_elemAt rfl (Nat.le_self_pow (by omega) 2)

/-- A count within the bound is `2^d` as a word only when it is `2^d`: the word has more than `d` bits. -/
theorem ofNat_eq_two_pow_deg_iff (hd : 1 ≤ deg p) {n : Nat} (hn : n ≤ 2 ^ deg p) :
    BitVec.ofNat w n = BitVec.ofNat w (2 ^ deg p) ↔ n = 2 ^ deg p := by
  have hlt : 2 ^ deg p < 2 ^ w := Nat.pow_lt_pow_right (by decide) (by have := deg_le p; omega)
  rw [← BitVec.toNat_inj, BitVec.toNat_ofNat, BitVec.toNat_ofNat, Nat.mod_eq_of_lt hlt, Nat.mod_eq_of_lt (by omega)]

/-- Settles O40: both commands read the same search; where it finds `k`, both conditions say `k = 2^d - 1`. -/
theorem isprimAndEnumAgree : Obligations.IsprimAndEnumAgree := by
  intro w p hd
  cases hk : ordSearch p with
  | none =>
    rw [outcomeIsprim_of_none hd hk, outcomeEnum_of_none hd hk]
    exact ⟨rfl, rfl, fun h => by cases h⟩
  | some k =>
    obtain ⟨⟨-, hle⟩, -⟩ := ordSearch_eq_some_iff.1 hk
    rw [groupOrder] at hle
    have hpos : 0 < 2 ^ deg p := Nat.two_pow_pos _
    rw [outcomeIsprim_of_some hd hk, outcomeEnum_of_some hd hk]
    refine ⟨rfl, rfl, fun _ => ?_⟩
    calc some (BitVec.ofNat w (k + 1)) = some (BitVec.ofNat w (2 ^ deg p))
        ↔ k + 1 = 2 ^ deg p := by rw [Option.some_inj, ofNat_eq_two_pow_deg_iff (by omega) (by omega)]
      _ ↔ k = 2 ^ deg p - 1 := by omega
      _ ↔ some (if k = 2 ^ deg p - 1 then 1#w else 0#w) = some 1#w := by
        simp [(one_ne_zero_of_deg (Nat.le_of_succ_le hd)).symm]

end Sys2Proof.Machine

/-! PROOFS. The reset event (70_reset_and_hazards.md). -/

namespace Sys2Proof.Machine

variable {P : Params}

/-- A reset turn, between any two steps: the block is the reset block, and the agents lose only the turn (R230, R231). -/
theorem step_reset (b : Block P) (e : Env P) (ts : List (Turn P)) :
    step ⟨P, b, { e with turns := .reset :: ts }⟩ = .next ⟨P, Block.reset P, { e with turns := ts }⟩ := rfl

/-- Settles O2: the step puts the reset block in place, and the fields written out are those of `Block.reset`. -/
theorem resetEventReplacesTheBlock : Obligations.ResetEventReplacesTheBlock :=
  fun _ b e ts => step_reset b e ts

end Sys2Proof.Machine

/-! PROOFS. The decoder on the encoder's words and on the illegal ones (30_encoding.md). -/

namespace Sys2Proof

variable {w : Nat}

/-- Settles O13: the word `encode` gives is the command's one word (R83). -/
theorem decodeOfEncodeIsTheCommand : Obligations.DecodeOfEncodeIsTheCommand :=
  fun w i hwf => (eachCommandHasExactlyOneWord w (encode w i) i hwf).2 rfl

/-- Settles O12: each command's sample is its encoded word; the illegal ones have RSV or an unassigned OPC. -/
theorem sampleWordsDecodeAsTheMapSays : Obligations.SampleWordsDecodeAsTheMapSays := by
  have hcommand (i : Instr) : decode (encode 64 i) = .legal i := decodeOfEncodeIsTheCommand 64 i rfl
  exact ⟨hcommand .nop, hcommand .add, hcommand .mul, hcommand .rem, hcommand .isprim, hcommand .enum, hcommand .deg,
    by decide, by decide⟩

/-- The opcodes without a command are those from 0x07 on (R82, R84). -/
theorem decodeOpcode_eq_none_iff (opc : BitVec 8) : decodeOpcode opc = none ↔ 0x07 ≤ opc.toNat := by
  unfold decodeOpcode
  split
  case h_8 =>
    simp only [imp_false, true_iff] at *
    omega
  all_goals exact iff_of_false (Option.some_ne_none _) (by omega)

/-- A word is illegal when RSV is not clear, or it is and OPC has no command (R84). -/
theorem exists_decode_eq_illegal_iff (cw : GF2Poly w) :
    (∃ why, decode cw = .illegal why) ↔ rsvField cw ≠ 0#w ∨ decodeOpcode (opcField cw) = none := by
  by_cases hrsv : rsvField cw = 0#w
  · rw [decode_of_opc cw hrsv]
    cases decodeOpcode (opcField cw) <;> simp [hrsv]
  · simp [decode_of_rsv cw hrsv, hrsv]

/-- Settles O15: the two conditions on the fields, with each field read as a number. -/
theorem illegalWordsAreTheReservedOnes : Obligations.IllegalWordsAreTheReservedOnes := by
  intro w cw
  rw [exists_decode_eq_illegal_iff, decodeOpcode_eq_none_iff, opcField_toNat, ne_eq, ← BitVec.toNat_inj,
    rsvField_toNat, BitVec.toNat_zero]
  omega

end Sys2Proof

/-! PROOFS. One turn of the engine or of the consumer (20_memory.md R60, R66; 40_command_lifecycle.md R103 to R108). -/

namespace Sys2Proof.Machine

variable {P : Params}

/-! ### The consumer's turn -/

/-- Settles O8: the turn is `takeStep` on the machine without that turn, by what the FIFO holds. -/
theorem takeDeliversTheHead : Obligations.TakeDeliversTheHead := by
  intro P b e ts
  have hstep : step ⟨P, b, { e with turns := .take :: ts }⟩ =
      .next (State.takeStep ⟨P, b, { e with turns := ts }⟩) := rfl
  refine ⟨fun v q hq => ?_, fun hq => ?_⟩
  · rw [hstep, takeStep_cons _ v q hq]
  · rw [hstep, takeStep_empty _ hq]

/-! ### The engine's turn -/

/-- The machine's step when the turn is the engine's: one engine step with the latched command's outcome (R101). -/
theorem step_engineNext (b : Block P) {e : Env P} (hnext : e.engineNext) :
    step ⟨P, b, e⟩ = .next ⟨P, b.engineStep b.outcome, e.afterTurn⟩ := by
  obtain ⟨turns, reads, taken⟩ := e
  rcases hnext with hnil | hhead
  · obtain rfl : turns = [] := hnil
    exact engineTurn_eq b _
  · obtain ⟨ts, rfl⟩ : ∃ ts, turns = .engine :: ts := List.head?_eq_some_iff.1 hhead
    exact engineTurn_eq b _

theorem outcome_of_decode_legal {w : Nat} {cw : GF2Poly w} {i : Instr} (hdecode : decode cw = .legal i)
    (a b : GF2Poly w) : outcome cw a b = outcomeOf i a b := by
  rw [outcome, hdecode]

theorem outcome_of_decode_illegal {w : Nat} {cw : GF2Poly w} {why : Illegal} (hdecode : decode cw = .illegal why)
    (a b : GF2Poly w) : outcome cw a b = outcomeIllegal w := by
  rw [outcome, hdecode]

/-- Settles O9: both sides are one engine step with the outcome of the decoded command. -/
theorem stepRunsTheDecodedCommand : Obligations.StepRunsTheDecodedCommand := by
  intro P b e i _ hdecode hnext
  rw [step_engineNext b hnext, exec_eq, Block.outcome, outcome_of_decode_legal hdecode]
  rfl

/-- Settles O10: the placed word is accepted with the engine's turn next, so it is the word that turn decodes. -/
theorem withFetchWordRunsThatWord : Obligations.WithFetchWordRunsThatWord :=
  fun P b e nbits w i hdecode =>
    stepRunsTheDecodedCommand P (b.accept (BitVec.ofNat P.W (w % 2 ^ nbits))) { e with turns := .engine :: e.turns } i
      rfl hdecode (.inr rfl)

/-- Settles O11: an illegal word's outcome emits nothing, so the turn is its completion. -/
theorem illegalWordCompletesWithItsCode : Obligations.IllegalWordCompletesWithItsCode := by
  intro P b e why hrun hdecode hj hnext
  refine ⟨b.complete (outcomeIllegal P.W), ?_, complete_completed b _⟩
  rw [step_engineNext b hnext, Block.outcome, outcome_of_decode_illegal hdecode, engineStep_complete b _ hrun hj]

/-- Settles O24: whatever the outcome, an engine step while IDLE leaves the block as it is (R108). -/
theorem idleEngineHasNoStep : Obligations.IdleEngineHasNoStep := by
  intro P b e hidle
  refine ⟨fun i => ?_, fun hnext => ?_⟩
  · rw [exec_eq, State.runCommand, engineStep_idle b _ hidle]
  · rw [step_engineNext b hnext, engineStep_idle b _ hidle]

/-- Settles O49: each of the cases of a step answers a next state and takes the turn off the list. -/
theorem everyStepAnswersANextState : Obligations.EveryStepAnswersANextState := by
  intro P b e
  rcases step_cases b e with ⟨-, h⟩ | ⟨idx, ts, -, h⟩ | ⟨idx, v, ts, -, h⟩ | ⟨ts, -, -, h⟩ | ⟨ts, v, q, -, -, h⟩ |
    ⟨ts, -, h⟩
  all_goals exact ⟨_, _, h, rfl⟩

end Sys2Proof.Machine

/-! PROOFS. REM and ENUM as the engine runs them, and the frame of every command (42_arithmetic.md,
43_order_engine.md). -/

namespace Sys2Proof.Machine

variable {w : Nat}

/-! ### REM (R146) -/

/-- The polynomials of degree 0 are the constants 0 and 1 (R120). -/
theorem deg_lt_one_iff (a : GF2Poly w) : deg a < 1 ↔ a = 0#w ∨ a = 1#w := by
  constructor
  · intro ha
    have hlt : a.toNat < 2 ^ 1 := toNat_lt_of_deg_lt ha
    have hwidth : a.toNat < 2 ^ w := a.isLt
    obtain h0 | h1 : a.toNat = 0 ∨ a.toNat = 1 := by omega
    · exact .inl (BitVec.eq_of_toNat_eq h0)
    · exact .inr (BitVec.eq_of_toNat_eq (by rw [BitVec.toNat_ofNat, Nat.mod_eq_of_lt (by omega), h1]))
  · rintro (rfl | rfl) <;> simp

theorem outcomeRem_of_deg_lt (a : GF2Poly w) {b : GF2Poly w} (hb : deg b < 1) :
    outcomeRem a b = .quiet none none .invalidDivisor false :=
  if_pos hb

theorem outcomeRem_of_one_le_deg (a : GF2Poly w) {b : GF2Poly w} (hb : 1 ≤ deg b) :
    outcomeRem a b = .quiet (some (polyRem a b)) none .none false :=
  if_neg (Nat.not_lt.2 hb)

/-- Settles O19: the divisors 0 and 1 are those of degree 0; for any other the loop leaves a remainder (R147). -/
theorem remCompletesWithARemainderOrTheDivisorError :
    Obligations.RemCompletesWithARemainderOrTheDivisorError := by
  intro P b e hrun hj
  rw [← deg_lt_one_iff]
  refine ⟨fun hb => exec_completes b e .rem (outcomeRem_of_deg_lt _ hb) hrun hj, fun hb => ?_⟩
  have hb1 : 1 ≤ deg b.eng.b := Nat.le_of_not_lt hb
  obtain ⟨b', hexec, hdone⟩ := exec_completes b e .rem (outcomeRem_of_one_le_deg b.eng.a hb1) hrun hj
  exact ⟨b', polyRem b.eng.a b.eng.b, hexec, isRemainder_polyRem b.eng.a hb1, hdone⟩

/-! ### ENUM (R103, R171) -/

theorem outcomeEnum_of_deg_lt {p : GF2Poly w} (hd : deg p < 2) :
    outcomeEnum p = .quiet none none .invalidModulus false :=
  if_pos hd

theorem outcomeEnum_elem {p : GF2Poly w} (hd : 2 ≤ deg p) : (outcomeEnum p).elem = elemAt p := by
  cases hk : ordSearch p with
  | none => rw [outcomeEnum_of_none hd hk]
  | some k => rw [outcomeEnum_of_some hd hk]

/-- From position 1 on `Elems(p)` are the powers, from `x^0` on (R170). -/
@[simp] theorem elemAt_succ (p : GF2Poly w) (n : Nat) : elemAt p (n + 1) = power p n := by
  cases n <;> rfl

theorem elemAt_eq_ite (p : GF2Poly w) (j : Nat) :
    elemAt p j = if j = 0 then 0#w else if j = 1 then 1#w else power p (j - 1) := by
  match j with
  | 0 => rfl
  | 1 => rfl
  | n + 2 => simp

/-- Settles O21: with elements left, the engine step is the emission of the next one, or the hold. -/
theorem enumEmitsItsElementsOrHolds : Obligations.EnumEmitsItsElementsOrHolds := by
  intro P b e hrun hd hsome hnone
  have hj : b.eng.j < (outcomeEnum b.eng.a).len := by
    cases hk : ordSearch b.eng.a with
    | none => rw [outcomeEnum_of_none hd hk]; exact hnone hk
    | some k => rw [outcomeEnum_of_some hd hk]; exact hsome k hk
  have hexec : exec .enum ⟨P, b, e⟩ = .next ⟨P, b.engineStep (outcomeEnum b.eng.a), e⟩ := rfl
  refine ⟨fun hq => ?_, fun hq => ?_⟩
  · rw [hexec, engineStep_emit b _ hrun hj hq, outcomeEnum_elem hd, elemAt_eq_ite]
    rfl
  · rw [hexec, engineStep_hold b _ hj hq]

/-- Settles O22: in each of R171's cases all of `E` is out, so the engine step is the completion. -/
theorem enumCompletesWithTheCount : Obligations.EnumCompletesWithTheCount := by
  intro P b e hrun
  exact ⟨fun hd hj => exec_completes b e .enum (outcomeEnum_of_deg_lt hd) hrun hj,
    fun hd _ hk hj => exec_completes b e .enum (outcomeEnum_of_some hd hk) hrun hj,
    fun hd hk hj => exec_completes b e .enum (outcomeEnum_of_none hd hk) hrun hj⟩

/-! ### The frame (R21, R103, R104) -/

/-- Every command but ENUM has an empty `E` (R101). -/
theorem outcomeOf_len {i : Instr} (hi : i ≠ .enum) (a b : GF2Poly w) : (outcomeOf i a b).len = 0 := by
  cases i with
  | nop | add | mul | deg => rfl
  | rem => rw [outcomeOf, outcomeRem]; split <;> rfl
  | isprim => exact outcomeIsprim_len a
  | enum => exact absurd rfl hi

section Frame

variable {P : Params} (b : Block P) (r : CommandOutcome P.W)

/-- What no engine step writes: CMD, the operand registers, the latched word and operands and the reserved bits. -/
theorem engineStep_frame :
    (b.engineStep r).cmd = b.cmd ∧ (b.engineStep r).opa = b.opa ∧ (b.engineStep r).opb = b.opb ∧
      (b.engineStep r).eng.cw = b.eng.cw ∧ (b.engineStep r).eng.a = b.eng.a ∧ (b.engineStep r).eng.b = b.eng.b ∧
      statusReserved (b.engineStep r).status = statusReserved b.status := by
  rcases engineStep_cases b r with ⟨-, h⟩ | ⟨-, h⟩ | ⟨-, -, h⟩ <;> simp [h]

/-- An engine step that leaves the engine's state is no completion: it writes no result and no flag (R103). -/
theorem engineStep_of_state_eq (hstate : (b.engineStep r).eng.state = b.eng.state) :
    (b.engineStep r).result = b.result ∧ (b.engineStep r).order = b.order ∧ (b.engineStep r).status = b.status := by
  rcases engineStep_cases b r with ⟨-, h⟩ | ⟨hcomplete, h⟩ | ⟨-, -, h⟩
  · simp [h]
  · obtain ⟨hrun, -⟩ := (completeEnabled_iff b r).1 hcomplete
    simp [h, hrun] at hstate
  · simp [h]

/-- An engine step that changes the engine's state is the completion: it emits nothing (R104). -/
theorem engineStep_of_state_ne (hstate : (b.engineStep r).eng.state ≠ b.eng.state) :
    (b.engineStep r).outq = b.outq ∧ (b.engineStep r).eng.j = b.eng.j := by
  rcases engineStep_cases b r with ⟨-, h⟩ | ⟨-, h⟩ | ⟨-, -, h⟩
  · simp [h] at hstate
  · simp [h]
  · simp [h]

/-- With an empty `E` an engine step leaves the FIFO alone. -/
theorem engineStep_outq_of_len (hlen : r.len = 0) : (b.engineStep r).outq = b.outq := by
  rcases engineStep_outq_cases b r with h | ⟨-, hj, -⟩
  · exact h
  · omega

end Frame

/-- Settles O25: `exec` is an engine step, whose frame is said once for every outcome; only ENUM has elements. -/
theorem everyCommandKeepsWhatItDoesNotWrite : Obligations.EveryCommandKeepsWhatItDoesNotWrite := by
  intro i P b e
  obtain ⟨hcmd, hopa, hopb, hcw, ha, hb, hreserved⟩ := engineStep_frame b (outcomeOf i b.eng.a b.eng.b)
  exact ⟨_, exec_eq i ⟨P, b, e⟩, hcmd, hopa, hopb, hcw, ha, hb, statusRej_engineStep b _, hreserved,
    fun hi => engineStep_outq_of_len b _ (outcomeOf_len hi _ _), engineStep_of_state_eq b _,
    engineStep_of_state_ne b _⟩

end Sys2Proof.Machine

/-! PROOFS. The outcome of a command (40_command_lifecycle.md R101): its error code, its OVF and its ORDER, for the
illegal words too (60_exceptions.md). -/

namespace Sys2Proof.Machine

variable {w : Nat}

/-! ### Error codes (R200) -/

/-- REM reports the divisors of degree 0 (R146). -/
theorem outcomeRem_err (a b : GF2Poly w) :
    (outcomeRem a b).err = if deg b < 1 then .invalidDivisor else .none :=
  apply_ite CommandOutcome.err ..

/-- ISPRIM reports a modulus of degree 2 or more without a constant term (R163, R164). -/
theorem outcomeIsprim_err (p : GF2Poly w) :
    (outcomeIsprim p).err = if 2 ≤ deg p ∧ p.getLsbD 0 = false then .orderNotFound else .none := by
  by_cases hd : 2 ≤ deg p
  · cases hk : ordSearch p with
    | none => simp [outcomeIsprim_of_none hd hk, hd, ← ordSearch_eq_none_iff_getLsbD hd, hk, CommandOutcome.quiet]
    | some k => simp [outcomeIsprim_of_some hd hk, ← ordSearch_eq_none_iff_getLsbD hd, hk, CommandOutcome.quiet]
  · simp [outcomeIsprim_of_deg_lt (Nat.lt_of_not_le hd), hd, CommandOutcome.quiet]

/-- ENUM reports a modulus of degree below 2, and one without a constant term (R171, R164). -/
theorem outcomeEnum_err (p : GF2Poly w) :
    (outcomeEnum p).err =
      if deg p < 2 then .invalidModulus else if p.getLsbD 0 = false then .orderNotFound else .none := by
  by_cases hd : deg p < 2
  · rw [outcomeEnum_of_deg_lt hd, if_pos hd]
    rfl
  · have hd2 : 2 ≤ deg p := Nat.le_of_not_lt hd
    rw [if_neg hd]
    cases hk : ordSearch p with
    | none => simp [outcomeEnum_of_none hd2 hk, ← ordSearch_eq_none_iff_getLsbD hd2, hk]
    | some k => simp [outcomeEnum_of_some hd2 hk, ← ordSearch_eq_none_iff_getLsbD hd2, hk]

/-- Settles O41: an illegal word has its own code, and a command reports what the lemma on its `err` says. -/
theorem eachErrorCodeHasExactlyItsCondition : Obligations.EachErrorCodeHasExactlyItsCondition := by
  intro w cw a b
  cases hdecode : decode cw with
  | illegal why =>
    rw [outcome_of_decode_illegal hdecode]
    simp [outcomeIllegal, CommandOutcome.quiet]
  | legal i =>
    rw [outcome_of_decode_legal hdecode]
    cases i with
    | nop | add | mul | deg => simp [outcomeOf, outcomeNop, outcomeAdd, outcomeMul, outcomeDeg, CommandOutcome.quiet]
    | rem =>
      rw [outcomeOf, outcomeRem_err, ← deg_lt_one_iff]
      split <;> simp [*]
    | isprim =>
      rw [outcomeOf, outcomeIsprim_err]
      split <;> simp [*]
    | enum =>
      rw [outcomeOf, outcomeEnum_err]
      by_cases hd : deg a < 2
      · simp [hd]
      · have hd2 : 2 ≤ deg a := Nat.le_of_not_lt hd
        cases a.getLsbD 0 <;> simp [hd, hd2]

/-! ### OVF (R27, R202) -/

/-- OVF says that the full product has a set bit at `w` or above (R142). -/
theorem clmulOvf_iff_exists_bit (a b : GF2Poly w) :
    clmulOvf a b = true ↔ ∃ k, w ≤ k ∧ (fullProduct a b).getLsbD k = true := by
  rw [← clmulFull_eq_fullProduct, clmulOvf, decide_eq_true_iff, ushiftRight_ne_zero]
  constructor
  · rintro ⟨hne, hdeg⟩
    exact ⟨_, hdeg, getLsbD_deg hne⟩
  · rintro ⟨k, hk, hbit⟩
    exact ⟨by rintro hzero; simp [hzero] at hbit, hk.trans (le_deg hbit)⟩

/-- Every command but MUL leaves OVF at 0 (R27). -/
theorem outcomeOf_ovf {i : Instr} (hi : i ≠ .mul) (a b : GF2Poly w) : (outcomeOf i a b).ovf = false := by
  cases i with
  | nop | add | deg => rfl
  | mul => exact absurd rfl hi
  | rem => rw [outcomeOf, outcomeRem]; split <;> rfl
  | isprim => rw [outcomeOf, outcomeIsprim]; split <;> [rfl; split <;> rfl]
  | enum => rw [outcomeOf, outcomeEnum]; split <;> [rfl; split <;> rfl]

/-- OVF comes from MUL alone, which reports its product's and no error (R27, R202). -/
theorem outcome_ovf_iff (cw a b : GF2Poly w) :
    (outcome cw a b).ovf = true ↔ decode cw = .legal .mul ∧ clmulOvf a b = true := by
  cases hdecode : decode cw with
  | illegal why => simp [outcome_of_decode_illegal hdecode, outcomeIllegal, CommandOutcome.quiet]
  | legal i =>
    rw [outcome_of_decode_legal hdecode]
    by_cases hi : i = .mul
    · subst hi; simp [outcomeOf, outcomeMul, CommandOutcome.quiet]
    · simp [outcomeOf_ovf hi, hi]

theorem err_of_outcome_ovf {cw a b : GF2Poly w} (hovf : (outcome cw a b).ovf = true) :
    (outcome cw a b).err = .none := by
  obtain ⟨hdecode, -⟩ := (outcome_ovf_iff cw a b).1 hovf
  rw [outcome_of_decode_legal hdecode]
  rfl

/-- Settles O42: MUL's OVF said by the bits of the product, and MUL's `err`. -/
theorem overflowIsReportedByMulAlone : Obligations.OverflowIsReportedByMulAlone := by
  intro w cw a b
  rw [← clmulOvf_iff_exists_bit]
  exact ⟨outcome_ovf_iff cw a b, err_of_outcome_ovf⟩

/-! ### ORDER (R31) -/

/-- The bound of the order search, at every width (R162). -/
theorem groupOrder_le (p : GF2Poly w) : groupOrder p ≤ 2 ^ (w - 1) - 1 :=
  Nat.sub_le_sub_right (Nat.pow_le_pow_right (by decide) (deg_le p)) 1

/-- What ISPRIM and ENUM give for ORDER is 0 or what the search found, which is within its bound. -/
theorem ofNat_ordSearch_le {p : GF2Poly w} {k : Nat} (hk : ordSearch p = some k) :
    (BitVec.ofNat w k).toNat ≤ 2 ^ (w - 1) - 1 := by
  obtain ⟨⟨-, hle⟩, -⟩ := ordSearch_eq_some_iff.1 hk
  rw [BitVec.toNat_ofNat]
  exact (Nat.mod_le k _).trans (hle.trans (groupOrder_le p))

theorem outcomeIsprim_ord_le {p v : GF2Poly w} (hv : (outcomeIsprim p).ord = some v) :
    v.toNat ≤ 2 ^ (w - 1) - 1 := by
  rw [outcomeIsprim] at hv
  split at hv
  · cases hv; simp
  · split at hv
    case h_1 k hk => cases hv; exact ofNat_ordSearch_le hk
    case h_2 => cases hv; simp

/-- ENUM keeps ORDER at degree below 2 and agrees with ISPRIM elsewhere (R174). -/
theorem outcomeEnum_ord_le {p v : GF2Poly w} (hv : (outcomeEnum p).ord = some v) : v.toNat ≤ 2 ^ (w - 1) - 1 := by
  by_cases hd : deg p < 2
  · rw [outcomeEnum_of_deg_lt hd] at hv
    cases hv
  · obtain ⟨hord, -⟩ := isprimAndEnumAgree w p (Nat.le_of_not_lt hd)
    exact outcomeIsprim_ord_le (hord.trans hv)

/-- No command writes more than `2^(w-1) - 1` to ORDER (R31). -/
theorem outcome_ord_le {cw a b v : GF2Poly w} (hv : (outcome cw a b).ord = some v) :
    v.toNat ≤ 2 ^ (w - 1) - 1 := by
  cases hdecode : decode cw with
  | illegal why => rw [outcome_of_decode_illegal hdecode] at hv; cases hv
  | legal i =>
    rw [outcome_of_decode_legal hdecode] at hv
    cases i with
    | nop | add | mul | deg => cases hv
    | rem => rw [outcomeOf, outcomeRem] at hv; split at hv <;> cases hv
    | isprim => exact outcomeIsprim_ord_le hv
    | enum => exact outcomeEnum_ord_le hv

end Sys2Proof.Machine

/-! PROOFS. Invariants that every step keeps. A step of the machine is one of seven events of the block, the reset event,
or it changes nothing in the block; so an invariant is kept by every step once it is kept by each event. -/

namespace Sys2Proof.Machine

variable {P : Params}

/-- A predicate of blocks that each event other than reset keeps: the engine's emission and completion (R103, R104), the
host's writes (R62) and the consumer's `Take` (R66). -/
structure KeptByEveryEvent (Inv : ∀ {P : Params}, Block P → Prop) : Prop where
  emit : ∀ {P} (b : Block P), b.eng.state = .run → b.eng.j < b.outcome.len → b.outq.length < P.OUT_DEPTH → Inv b →
    Inv (b.emit (b.outcome.elem b.eng.j))
  complete : ∀ {P} (b : Block P), b.eng.state = .run → b.eng.j = b.outcome.len → Inv b → Inv (b.complete b.outcome)
  accept : ∀ {P} (b : Block P) (v : P.Word), b.eng.state = .idle → Inv b → Inv (b.accept v)
  reject : ∀ {P} (b : Block P) (v : P.Word), b.eng.state = .run → Inv b → Inv (b.reject v)
  clearRej : ∀ {P} (b : Block P), Inv b → Inv { b with status := setRej b.status false }
  operands : ∀ {P} (b : Block P) (x y : P.Word), Inv b → Inv { b with opa := x, opb := y }
  take : ∀ {P} (b : Block P) (v : P.Word) (q : List P.Word), b.outq = v :: q → Inv b → Inv { b with outq := q }

/-- After a reset turn the block is the reset block (R230). -/
theorem block_of_step_reset {b b' : Block P} {e e' : Env P} (hstep : step ⟨P, b, e⟩ = .next ⟨P, b', e'⟩)
    (hreset : e.turns.head? = some .reset) : b' = Block.reset P := by
  obtain ⟨ts, hts⟩ := List.head?_eq_some_iff.1 hreset
  have he : e = { e with turns := .reset :: ts } := by rw [← hts]
  rw [he, step_reset] at hstep
  exact (next_mk_inj hstep).1

section KeptByEveryEvent

variable {Inv : ∀ {P : Params}, Block P → Prop} (hkept : KeptByEveryEvent Inv)
include hkept

theorem KeptByEveryEvent.engineStep (b : Block P) (h : Inv b) : Inv (b.engineStep b.outcome) := by
  rcases engineStep_cases b b.outcome with ⟨hemit, heq⟩ | ⟨hcomplete, heq⟩ | ⟨-, -, heq⟩ <;> rw [heq]
  · obtain ⟨hrun, hj, hq⟩ := (emitEnabled_iff b _).1 hemit
    exact hkept.emit b hrun hj hq h
  · obtain ⟨hrun, hj⟩ := (completeEnabled_iff b _).1 hcomplete
    exact hkept.complete b hrun hj h
  · exact h

theorem KeptByEveryEvent.hostWrite (b : Block P) (idx : RegIndex) (v : P.Word) (h : Inv b) :
    Inv (b.hostWrite idx v) := by
  rcases hostWrite_cases b v idx with ⟨-, hidle, heq⟩ | ⟨-, hrun, heq⟩ | ⟨-, -, heq⟩ | ⟨-, -, heq⟩ | ⟨-, heq⟩ |
    ⟨-, heq⟩ | ⟨-, heq⟩ <;> rw [heq]
  · exact hkept.accept b v hidle h
  · exact hkept.reject b v hrun h
  · exact hkept.clearRej b h
  · exact h
  · exact hkept.operands b v b.opb h
  · exact hkept.operands b b.opa v h
  · exact h

/-- Every step but reset keeps what each event keeps (R60). -/
theorem KeptByEveryEvent.step_of_not_reset {b b' : Block P} {e e' : Env P} (hstep : step ⟨P, b, e⟩ = .next ⟨P, b', e'⟩)
    (hreset : e.turns.head? ≠ some .reset) (h : Inv b) : Inv b' := by
  rcases step_inv hstep with ⟨-, rfl, -⟩ | ⟨_, -, rfl, -⟩ | ⟨idx, v, -, rfl, -⟩ | ⟨-, -, rfl, -⟩ |
    ⟨v, q, -, hq, rfl, -⟩ | ⟨ht, -, -⟩
  · exact hkept.engineStep b h
  · exact h
  · exact hkept.hostWrite b idx v h
  · exact h
  · exact hkept.take b v q hq h
  · exact absurd ht hreset

/-- What each event keeps and the reset block meets, every step keeps. -/
theorem KeptByEveryEvent.step (hinit : ∀ P : Params, Inv (Block.reset P)) (s t : State)
    (hstep : Machine.step s = .next t) (h : Inv s.block) : Inv t.block := by
  obtain ⟨P, b, e⟩ := s
  obtain ⟨b', e', hnext, -⟩ := everyStepAnswersANextState P b e
  obtain rfl : (⟨P, b', e'⟩ : State) = t := by
    rw [hnext] at hstep
    injection hstep
  by_cases hreset : e.turns.head? = some .reset
  · exact block_of_step_reset hnext hreset ▸ hinit P
  · exact hkept.step_of_not_reset hnext hreset h

end KeptByEveryEvent

/-! ### STATUS (R24 to R26, R200, R202) -/

theorem statusInv_reset (P : Params) : (Block.reset P).StatusInv := by
  constructor <;> simp

/-- The invariant reads STATUS and the engine's state alone. -/
theorem Block.StatusInv.congr {b b' : Block P} (h : b.StatusInv) (hstatus : b'.status = b.status)
    (hstate : b'.eng.state = b.eng.state) : b'.StatusInv := by
  constructor <;> rw [hstatus]
  · rw [hstate]; exact h.busy_iff_run
  · exact h.not_busy_and_done
  · exact h.reserved_zero
  · exact h.err_assigned
  · exact h.ovf_without_err

/-- REJ is no part of the invariant. -/
theorem Block.StatusInv.setRej {b : Block P} (h : b.StatusInv) (v : Bool) :
    ({ b with status := Machine.setRej b.status v } : Block P).StatusInv := by
  constructor <;> simp only [statusBusy_setRej, statusDone_setRej, statusReserved_setRej, statusErr_setRej,
    statusOvf_setRej, nine_le_W]
  · exact h.busy_iff_run
  · exact h.not_busy_and_done
  · exact h.reserved_zero
  · exact h.err_assigned
  · exact h.ovf_without_err

theorem Block.StatusInv.complete {b : Block P} (h : b.StatusInv) : (b.complete b.outcome).StatusInv where
  busy_iff_run := by simp
  not_busy_and_done := by simp
  reserved_zero := by simpa using h.reserved_zero
  err_assigned := by simpa using errNumber_le b.outcome.err
  ovf_without_err := by
    intro hovf
    have houtcome : b.outcome.ovf = true := by simpa using hovf
    have herr : b.outcome.err = .none := err_of_outcome_ovf houtcome
    simp [herr, errNumber]

theorem Block.StatusInv.accept {b : Block P} (h : b.StatusInv) (v : P.Word) : (b.accept v).StatusInv where
  busy_iff_run := by simp
  not_busy_and_done := by simp
  reserved_zero := by simpa using h.reserved_zero
  err_assigned := by simpa using h.err_assigned
  ovf_without_err := by simpa using h.ovf_without_err

theorem statusInv_kept : KeptByEveryEvent @Block.StatusInv where
  emit _ _ _ _ h := h.congr rfl rfl
  complete _ _ _ h := h.complete
  accept _ v _ h := h.accept v
  reject _ _ _ h := h.setRej true
  clearRej _ h := h.setRej false
  operands _ _ _ h := h.congr rfl rfl
  take _ _ _ _ h := h.congr rfl rfl

/-- Settles O44, event by event. -/
theorem stepKeepsTheStatusInvariant : Obligations.StepKeepsTheStatusInvariant :=
  statusInv_kept.step statusInv_reset

/-! ### The engine and its FIFO (R33, R23, R103) -/

theorem engineInv_reset (P : Params) : (Block.reset P).EngineInv := by
  constructor <;> simp

theorem engineInv_kept : KeptByEveryEvent @Block.EngineInv where
  emit b _ hj hq h :=
    { outq_fits := by simpa using hq
      cmd_is_latched := h.cmd_is_latched
      emitted_bounded := fun _ => hj }
  complete b _ _ h :=
    { outq_fits := h.outq_fits
      cmd_is_latched := h.cmd_is_latched
      emitted_bounded := by simp }
  accept b v _ h :=
    { outq_fits := h.outq_fits
      cmd_is_latched := rfl
      emitted_bounded := fun _ => Nat.zero_le _ }
  reject b _ _ h := ⟨h.outq_fits, h.cmd_is_latched, h.emitted_bounded⟩
  clearRej b h := ⟨h.outq_fits, h.cmd_is_latched, h.emitted_bounded⟩
  operands b _ _ h := ⟨h.outq_fits, h.cmd_is_latched, h.emitted_bounded⟩
  take b v q hq h :=
    { outq_fits := by
        have hlen := h.outq_fits
        rw [hq, List.length_cons] at hlen
        exact Nat.le_of_succ_le hlen
      cmd_is_latched := h.cmd_is_latched
      emitted_bounded := h.emitted_bounded }

/-- Settles O45: an emission is made only with room in the FIFO and an element left, and an acceptance counts from 0. -/
theorem stepKeepsTheEngineInvariant : Obligations.StepKeepsTheEngineInvariant :=
  engineInv_kept.step engineInv_reset

/-! ### The results (R203, R240) -/

/-- The invariant speaks of an idle engine alone. -/
theorem resultsInv_of_run {b : Block P} (hrun : b.eng.state = .run) : b.ResultsInv := by
  constructor <;> intro hidle <;> rw [hrun] at hidle <;> cases hidle

theorem resultsInv_reset (P : Params) : (Block.reset P).ResultsInv := by
  constructor <;> simp

theorem resultsInv_complete {b : Block P} (hj : b.eng.j = b.outcome.len) : (b.complete b.outcome).ResultsInv where
  err _ _ := statusErr_completed _ _ _ _ (nine_le_W P)
  ovf _ _ := statusOvf_completed _ _ _ _ (nine_le_W P)
  azero _ _ := statusAzero_completed _ _ _ _ (nine_le_W P)
  result _ _ _ hv := congrArg (Option.getD · b.result) hv
  order _ _ _ hv := congrArg (Option.getD · b.order) hv
  emitted _ _ := hj

theorem Block.ResultsInv.clearRej {b : Block P} (h : b.ResultsInv) :
    ({ b with status := setRej b.status false } : Block P).ResultsInv := by
  constructor <;> simp only [statusDone_setRej, statusErr_setRej, statusOvf_setRej, statusAzero_setRej, nine_le_W]
  · exact h.err
  · exact h.ovf
  · exact h.azero
  · exact h.result
  · exact h.order
  · exact h.emitted

theorem resultsInv_kept : KeptByEveryEvent @Block.ResultsInv where
  emit _ hrun _ _ _ := resultsInv_of_run hrun
  complete _ _ hj _ := resultsInv_complete hj
  accept _ _ _ _ := resultsInv_of_run rfl
  reject _ _ hrun _ := resultsInv_of_run hrun
  clearRej _ h := h.clearRej
  operands _ _ _ h := ⟨h.err, h.ovf, h.azero, h.result, h.order, h.emitted⟩
  take _ _ _ _ h := ⟨h.err, h.ovf, h.azero, h.result, h.order, h.emitted⟩

/-- Settles O46: the completion establishes the invariant, and it says nothing of a running command. -/
theorem stepKeepsResultsWithTheirCommand : Obligations.StepKeepsResultsWithTheirCommand :=
  resultsInv_kept.step resultsInv_reset

/-! ### The fresh block (R26) -/

theorem freshInv_of_run {b : Block P} (hrun : b.eng.state = .run) : b.FreshInv := by
  intro hidle
  rw [hrun] at hidle
  cases hidle

theorem freshInv_reset (P : Params) : (Block.reset P).FreshInv :=
  fun _ _ => rfl

/-- On the fresh block, clearing REJ writes the 0 that is there. -/
theorem Block.FreshInv.clearRej {b : Block P} (h : b.FreshInv) :
    ({ b with status := setRej b.status false } : Block P).FreshInv := by
  intro hidle hdone
  have hfresh := h hidle (by simpa using hdone)
  have hstatus : b.status = 0#P.W := congrArg Block.status hfresh
  rw [hstatus, setRej_zero, ← hstatus]
  exact hfresh

/-- On the fresh block there is nothing to take. -/
theorem Block.FreshInv.take {b : Block P} (h : b.FreshInv) {v : P.Word} {q : List P.Word} (hq : b.outq = v :: q) :
    ({ b with outq := q } : Block P).FreshInv := by
  intro hidle hdone
  have hempty : b.outq = [] := congrArg Block.outq (h hidle hdone)
  rw [hq] at hempty
  cases hempty

theorem freshInv_kept : KeptByEveryEvent @Block.FreshInv where
  emit _ hrun _ _ _ := freshInv_of_run hrun
  complete _ _ _ _ := by
    intro _ hdone
    simp at hdone
  accept _ _ _ _ := freshInv_of_run rfl
  reject _ _ hrun _ := freshInv_of_run hrun
  clearRej _ h := h.clearRej
  operands _ x y h := fun hidle hdone => congrArg (fun c => { c with opa := x, opb := y }) (h hidle hdone)
  take _ _ _ hq h := h.take hq

/-- Settles O47: a block that has accepted a command is running or has DONE = 1. -/
theorem stepKeepsNotDoneAsFresh : Obligations.StepKeepsNotDoneAsFresh :=
  freshInv_kept.step freshInv_reset

/-! ### ORDER (R31) -/

theorem orderInv_reset (P : Params) : (Block.reset P).OrderInv :=
  Nat.zero_le _

theorem Block.OrderInv.complete {b : Block P} (h : b.OrderInv) : (b.complete b.outcome).OrderInv := by
  rw [Block.OrderInv, complete_order]
  cases hord : b.outcome.ord with
  | none => exact h
  | some v => exact outcome_ord_le hord

theorem orderInv_kept : KeptByEveryEvent @Block.OrderInv where
  emit _ _ _ _ h := h
  complete _ _ _ h := h.complete
  accept _ _ _ h := h
  reject _ _ _ h := h
  clearRej _ h := h
  operands _ _ _ h := h
  take _ _ _ _ h := h

/-- Settles O48: only a completion writes ORDER, and no outcome holds more than the bound of the search. -/
theorem stepKeepsTheOrderBound : Obligations.StepKeepsTheOrderBound :=
  orderInv_kept.step orderInv_reset

/-- Settles O43: the base case of each of the five. -/
theorem invariantsHoldAtReset : Obligations.InvariantsHoldAtReset :=
  fun P => ⟨statusInv_reset P, engineInv_reset P, resultsInv_reset P, freshInv_reset P, orderInv_reset P⟩

end Sys2Proof.Machine

/-! PROOFS. The powers of `x` in the polynomial ring, and primitivity (43_order_engine.md R160 to R165, R172). The first
`k` powers, `k` being the order, are different nonzero residues, and every later one repeats one of them. So `k` is
`2^d - 1` exactly when the powers are all the nonzero residues; and then `p` has no proper factors, since their
product, a power of `x`, would be 0. -/

namespace Sys2Proof.Machine

variable {w : Nat} {p : GF2Poly w}

/-! ### The engine's step is multiplication by `x` (R160) -/

theorem toPoly_one (hw : 0 < w) : toPoly 1#w = 1 := by
  rw [← BitVec.twoPow_zero, toPoly_twoPow hw, pow_zero]

theorem toPoly_polyX (hw : 1 < w) : toPoly (polyX w) = Polynomial.X := by
  rw [← shl_one_one, toPoly_shl_of_deg (by rw [deg_one]; omega), toPoly_one (by omega), one_mul, pow_one]

theorem deg_polyX (hw : 1 < w) : deg (polyX w) = 1 := by
  rw [← natDegree_toPoly, toPoly_polyX hw, Polynomial.natDegree_X]

/-- A product that does not overflow is the ring's product (R142). -/
theorem toPoly_clmul {a b : GF2Poly w} (hovf : clmulOvf a b = false) : toPoly (clmul a b) = toPoly a * toPoly b := by
  have hshift : clmulFull a b >>> w = 0#(2 * w - 1) := by simpa [clmulOvf] using hovf
  rw [← toPoly_clmulFull, clmul]
  ext i
  have hbit : ((clmulFull a b).setWidth w).getLsbD i = (clmulFull a b).getLsbD i := by
    rw [BitVec.getLsbD_setWidth, Bool.and_eq_right_iff_imp, decide_eq_true_iff]
    intro hset
    by_contra hi
    have hnone : (clmulFull a b >>> w).getLsbD (i - w) = false := by rw [hshift, BitVec.getLsbD_zero]
    rw [BitVec.getLsbD_ushiftRight, Nat.add_sub_cancel' (Nat.le_of_not_lt hi), hset] at hnone
    cases hnone
  rw [coeff_toPoly, coeff_toPoly, hbit]

/-- `c * x` stays inside the word (R160). -/
theorem clmulOvf_polyX {c : GF2Poly w} (hc : deg c + 1 < w) : clmulOvf c (polyX w) = false := by
  rw [← Bool.not_eq_true, clmulOvf_iff, deg_polyX (by omega)]
  omega

theorem clmul_polyX {c : GF2Poly w} (hc : deg c + 1 < w) : clmul c (polyX w) = shl c 1 :=
  toPoly_injective (by rw [toPoly_clmul (clmulOvf_polyX hc), toPoly_polyX (by omega), toPoly_shl_of_deg hc, pow_one])

/-- The step takes `p` away once or not at all, and its result is reduced: it is the remainder of the shift (R160). -/
theorem isRemainder_xstep {c : GF2Poly w} (hp : 1 ≤ deg p) (hc : deg c < deg p) :
    IsRemainder (shl c 1) p (xstep c p) := by
  have hwidth := deg_le p
  refine (isRemainder_iff _ _ _).2 ⟨?_, .inr (deg_xstep_lt hp hc)⟩
  unfold xstep
  split
  · refine ⟨1#w, ?_⟩
    rw [toPoly_one (by omega), one_mul, ← toPoly_xor, BitVec.xor_comm, BitVec.xor_assoc, BitVec.xor_self,
      BitVec.xor_zero]
  · exact ⟨0#w, by simp⟩

theorem xstep_eq_polyRem {c : GF2Poly w} (hp : 1 ≤ deg p) (hc : deg c < deg p) :
    xstep c p = polyRem (clmul c (polyX w)) p := by
  have hwidth := deg_le p
  rw [clmul_polyX (by omega)]
  exact (isRemainder_xstep hp hc).unique (ne_zero_of_one_le_deg hp) (isRemainder_polyRem _ hp)

/-- Settles O33: `c * x` is the shift, and the step is the one remainder of it. -/
theorem xstepIsMultiplyByXThenRemainder : Obligations.XstepIsMultiplyByXThenRemainder := by
  intro w c p hd hc
  have hp : 1 ≤ deg p := Nat.le_of_succ_le hd
  have hwidth := deg_le p
  have hlt : deg c < deg p := by
    rcases hc with rfl | hlt
    · rwa [deg_zero]
    · exact hlt
  exact ⟨clmulOvf_polyX (by omega), xstep_eq_polyRem hp hlt, .inr (deg_xstep_lt hp hlt)⟩

/-! ### The power sequence and the order search (R161, R162) -/

/-- Settles O34: every power is reduced, so each step is REM of MUL by `x`. -/
theorem powersAreReducedPowersOfX : Obligations.PowersAreReducedPowersOfX := by
  intro w p hd
  refine ⟨power_one p, fun n _ => ⟨?_, .inr (deg_power_lt hd n)⟩⟩
  rw [power_succ hd, xstep_eq_polyRem (Nat.le_of_succ_le hd) (deg_power_lt hd n)]

/-- Settles O35: what the search answers is said by the powers up to its bound. -/
theorem orderSearchFindsTheSmallestExponent : Obligations.OrderSearchFindsTheSmallestExponent := by
  intro w p _
  refine ⟨groupOrder_le p, fun k hk => ?_, ordSearch_eq_none_iff.1⟩
  obtain ⟨⟨hpos, hle⟩, hone, hmin⟩ := ordSearch_eq_some_iff.1 hk
  exact ⟨hpos, hle, hone, hmin⟩

/-- `power p n` is `x^n` modulo `p`. -/
theorem toPoly_dvd_X_pow_sub_power (hd : 2 ≤ deg p) (n : Nat) :
    toPoly p ∣ Polynomial.X ^ n - toPoly (power p n) := by
  have hwidth := deg_le p
  induction n with
  | zero => simp [toPoly_one (show 0 < w by omega)]
  | succ n ih =>
    have hlt := deg_power_lt hd n
    obtain ⟨⟨q, hq⟩, -⟩ := (isRemainder_iff _ _ _).1 (isRemainder_xstep (Nat.le_of_succ_le hd) hlt)
    rw [toPoly_shl_of_deg (by omega), pow_one, ← power_succ hd] at hq
    have hsplit : Polynomial.X ^ (n + 1) - toPoly (power p (n + 1)) =
        (Polynomial.X ^ n - toPoly (power p n)) * Polynomial.X + toPoly q * toPoly p := by
      rw [sub_mul, hq]; ring
    rw [hsplit]
    exact dvd_add (dvd_mul_of_dvd_left ih _) (dvd_mul_left _ _)

/-- A reduced word that `p` divides is 0. -/
theorem eq_zero_of_toPoly_dvd {a : GF2Poly w} (ha : deg a < deg p) (h : toPoly p ∣ toPoly a) : a = 0#w :=
  toPoly_eq_zero.1 (Polynomial.eq_zero_of_dvd_of_natDegree_lt h (by rwa [natDegree_toPoly, natDegree_toPoly]))

/-- Two powers whose product is `p` itself would give a power that is 0. -/
theorem power_mul_power_ne (hd : 2 ≤ deg p) (h0 : p.getLsbD 0 = true) (m n : Nat) :
    toPoly (power p m) * toPoly (power p n) ≠ toPoly p := by
  intro hmul
  have hXpow : toPoly p ∣ Polynomial.X ^ (m + n) := by
    have hsplit : (Polynomial.X : Polynomial (ZMod 2)) ^ (m + n) =
        (Polynomial.X ^ m - toPoly (power p m)) * Polynomial.X ^ n +
          toPoly (power p m) * (Polynomial.X ^ n - toPoly (power p n)) + toPoly p := by
      rw [← hmul]; ring
    rw [hsplit]
    exact dvd_add (dvd_add (dvd_mul_of_dvd_left (toPoly_dvd_X_pow_sub_power hd m) _)
      (dvd_mul_of_dvd_right (toPoly_dvd_X_pow_sub_power hd n) _)) dvd_rfl
  have hpower : toPoly p ∣ toPoly (power p (m + n)) :=
    (dvd_sub_right hXpow).1 (toPoly_dvd_X_pow_sub_power hd (m + n))
  exact power_ne_zero hd h0 _ (eq_zero_of_toPoly_dvd (deg_power_lt hd _) hpower)

/-! ### The residues among the powers (R165) -/

/-- From the order on the powers repeat. -/
theorem power_periodic (hd : 2 ≤ deg p) {k : Nat} (hone : power p k = 1#w) : Function.Periodic (power p) k := by
  intro n
  induction n with
  | zero => rw [Nat.zero_add, hone, power_zero]
  | succ n ih => rw [Nat.add_right_comm, power_succ hd, ih, power_succ hd]

/-- A modulus with an order has a constant term (R164). -/
theorem getLsbD_zero_of_ordSearch (hd : 2 ≤ deg p) {k : Nat} (hk : ordSearch p = some k) : p.getLsbD 0 = true := by
  rw [← Bool.not_eq_false, ← ordSearch_eq_none_iff_getLsbD hd, hk]
  exact Option.some_ne_none k

/-- Below the order no power comes twice. -/
theorem power_injOn (hd : 2 ≤ deg p) {k : Nat} (hk : ordSearch p = some k) {i j : Nat} (hi : i < k) (hj : j < k)
    (h : power p i = power p j) : i = j := by
  obtain ⟨-, -, hmin⟩ := ordSearch_eq_some_iff.1 hk
  wlog hle : i ≤ j generalizing i j
  · exact (this hj hi h.symm (Nat.le_of_not_le hle)).symm
  obtain ⟨m, rfl⟩ := Nat.exists_eq_add_of_le hle
  by_contra hne
  exact hmin m (by omega) (by omega) (power_cancel hd (getLsbD_zero_of_ordSearch hd hk) h)

/-- The powers below the order, as numbers. -/
def powerValues (p : GF2Poly w) (k : Nat) : Finset Nat := (Finset.range k).image fun n => (power p n).toNat

theorem mem_powerValues {k : Nat} (c : GF2Poly w) : c.toNat ∈ powerValues p k ↔ ∃ n < k, power p n = c := by
  simp [powerValues, BitVec.toNat_inj]

theorem card_powerValues (hd : 2 ≤ deg p) {k : Nat} (hk : ordSearch p = some k) : (powerValues p k).card = k := by
  have hinj : Set.InjOn (fun n => (power p n).toNat) (Finset.range k) := fun i hi j hj h =>
    power_injOn hd hk (Finset.mem_range.1 hi) (Finset.mem_range.1 hj) (BitVec.eq_of_toNat_eq h)
  rw [powerValues, Finset.card_image_of_injOn hinj, Finset.card_range]

theorem deg_lt_of_toNat_lt {c : GF2Poly w} {d : Nat} (hd : 1 ≤ d) (hc : c.toNat < 2 ^ d) : deg c < d := by
  rcases getLsbD_deg_or_eq_zero c with hset | hzero
  · have hpow : 2 ^ deg c ≤ c.toNat := Nat.ge_two_pow_of_testBit hset
    exact (Nat.pow_lt_pow_iff_right (by decide)).1 (hpow.trans_lt hc)
  · omega

/-- The nonzero residues, as numbers. -/
theorem toNat_mem_Ico_iff {d : Nat} (hd : 1 ≤ d) (c : GF2Poly w) :
    c.toNat ∈ Finset.Ico 1 (2 ^ d) ↔ c ≠ 0#w ∧ deg c < d := by
  have hpos : 1 ≤ c.toNat ↔ c ≠ 0#w := by
    rw [Nat.one_le_iff_ne_zero, ne_eq, ne_eq, ← BitVec.toNat_inj, BitVec.toNat_zero]
  rw [Finset.mem_Ico, hpos]
  exact and_congr_right fun _ => ⟨deg_lt_of_toNat_lt hd, toNat_lt_of_deg_lt⟩

/-- With an order every power is a nonzero residue. -/
theorem powerValues_subset (hd : 2 ≤ deg p) {k : Nat} (hk : ordSearch p = some k) :
    powerValues p k ⊆ Finset.Ico 1 (2 ^ deg p) := by
  intro v hv
  obtain ⟨n, -, rfl⟩ := Finset.mem_image.1 hv
  exact (toNat_mem_Ico_iff (by omega) _).2
    ⟨power_ne_zero hd (getLsbD_zero_of_ordSearch hd hk) n, deg_power_lt hd n⟩

/-- The order is the bound of the search exactly when the powers below it are all the nonzero residues. -/
theorem order_eq_groupOrder_iff (hd : 2 ≤ deg p) {k : Nat} (hk : ordSearch p = some k) :
    k = groupOrder p ↔ ∀ c : GF2Poly w, c ≠ 0#w → deg c < deg p → ∃ n < k, power p n = c := by
  have hsub := powerValues_subset hd hk
  have hcard := card_powerValues hd hk
  have hIco : (Finset.Ico 1 (2 ^ deg p)).card = groupOrder p := Nat.card_Ico ..
  constructor
  · intro heq c hc hdeg
    have hall : powerValues p k = Finset.Ico 1 (2 ^ deg p) := Finset.eq_of_subset_of_card_le hsub (by omega)
    rw [← mem_powerValues, hall]
    exact (toNat_mem_Ico_iff (by omega) c).2 ⟨hc, hdeg⟩
  · intro hres
    have hsup : Finset.Ico 1 (2 ^ deg p) ⊆ powerValues p k := by
      intro v hv
      have hpow : 2 ^ deg p ≤ 2 ^ w := Nat.pow_le_pow_right (by decide) (by have := deg_le p; omega)
      obtain ⟨c, rfl⟩ : ∃ c : GF2Poly w, c.toNat = v :=
        ⟨BitVec.ofNat w v, by rw [BitVec.toNat_ofNat, Nat.mod_eq_of_lt (by have := Finset.mem_Ico.1 hv; omega)]⟩
      obtain ⟨hc, hdeg⟩ := (toNat_mem_Ico_iff (by omega) c).1 hv
      exact (mem_powerValues c).2 (hres c hc hdeg)
    rw [← hcard, ← hIco, hsub.antisymm hsup]

/-! ### Primitivity (R165) -/

/-- Where every nonzero residue is a power of `x`, `p` has no two proper factors. -/
theorem polyIrreducible_of_powers (hd : 2 ≤ deg p) (h0 : p.getLsbD 0 = true)
    (hpowers : ∀ c : GF2Poly w, c ≠ 0#w → deg c < deg p → ∃ n, power p n = c) : polyIrreducible p := by
  refine ⟨by omega, fun a b hab => ?_⟩
  have hmul : toPoly a * toPoly b = toPoly p := by
    rw [← toPoly_clmulFull, clmulFull_eq_fullProduct, hab, toPoly_setWidth (by omega)]
  by_contra hne
  obtain ⟨hdega, hdegb⟩ := not_or.1 hne
  have ha : a ≠ 0#w := ne_zero_of_one_le_deg (Nat.pos_of_ne_zero hdega)
  have hb : b ≠ 0#w := ne_zero_of_one_le_deg (Nat.pos_of_ne_zero hdegb)
  have hdeg : deg a + deg b = deg p := by
    rw [← deg_clmulFull ha hb, ← natDegree_toPoly, toPoly_clmulFull, hmul, natDegree_toPoly]
  obtain ⟨m, rfl⟩ := hpowers a ha (by omega)
  obtain ⟨n, rfl⟩ := hpowers b hb (by omega)
  exact power_mul_power_ne hd h0 m n hmul

/-- A primitive polynomial has a constant term, or no power would be 1. -/
theorem exists_ordSearch_of_primitive (hprim : polyPrimitive p) : ∃ k, ordSearch p = some k := by
  obtain ⟨hd, -, hpowers⟩ := hprim
  obtain ⟨n, hn, hone⟩ := hpowers 1#w (one_ne_zero_of_deg (Nat.le_of_succ_le hd)) (by rw [deg_one]; omega)
  rw [← Option.ne_none_iff_exists', ne_eq, ordSearch_eq_none_iff_getLsbD hd]
  exact fun h0 => power_ne_one hd h0 hn hone

/-- The primitive polynomials are those whose order is the bound of the search (R165). -/
theorem polyPrimitive_iff_ordSearch (hd : 2 ≤ deg p) : polyPrimitive p ↔ ordSearch p = some (groupOrder p) := by
  constructor
  · intro hprim
    obtain ⟨k, hk⟩ := exists_ordSearch_of_primitive hprim
    obtain ⟨-, -, hpowers⟩ := hprim
    obtain ⟨⟨hpos, -⟩, hone, -⟩ := ordSearch_eq_some_iff.1 hk
    rw [hk, (order_eq_groupOrder_iff hd hk).2]
    intro c hc hdeg
    obtain ⟨n, -, hn⟩ := hpowers c hc hdeg
    exact ⟨n % k, Nat.mod_lt n hpos, by rw [(power_periodic hd hone).map_mod_nat, hn]⟩
  · intro hk
    have hres := (order_eq_groupOrder_iff hd hk).1 rfl
    obtain ⟨⟨hpos, -⟩, hone, -⟩ := ordSearch_eq_some_iff.1 hk
    refine ⟨hd, polyIrreducible_of_powers hd (getLsbD_zero_of_ordSearch hd hk) fun c hc hdeg => ?_,
      fun c hc hdeg => ?_⟩
    · obtain ⟨n, -, hn⟩ := hres c hc hdeg
      exact ⟨n, hn⟩
    · obtain ⟨n, -, hn⟩ := hres c hc hdeg
      exact ⟨n + groupOrder p, by omega, by rw [power_periodic hd hone n, hn]⟩

/-- Settles O37: ISPRIM compares the order with the bound of the search. -/
theorem isprimDecidesPrimitivity : Obligations.IsprimDecidesPrimitivity := by
  intro w p hd
  have hne : 0#w ≠ 1#w := (one_ne_zero_of_deg (Nat.le_of_succ_le hd)).symm
  rw [polyPrimitive_iff_ordSearch hd, groupOrder]
  cases hk : ordSearch p with
  | none => simp [outcomeIsprim_of_none hd hk, CommandOutcome.quiet, hne]
  | some k => simp [outcomeIsprim_of_some hd hk, CommandOutcome.quiet, hne]

/-! ### ENUM of a primitive polynomial (R172) -/

theorem map_elemAt_range_succ (p : GF2Poly w) (k : Nat) :
    (List.range (k + 1)).map (elemAt p) = 0#w :: (List.range k).map (power p) := by
  simp [List.range_succ_eq_map, Function.comp_def]

theorem nodup_powers (hd : 2 ≤ deg p) {k : Nat} (hk : ordSearch p = some k) :
    (0#w :: (List.range k).map (power p)).Nodup := by
  refine List.nodup_cons.2 ⟨fun hmem => ?_, List.nodup_range.map_on fun i hi j hj h => ?_⟩
  · obtain ⟨n, -, hn⟩ := List.mem_map.1 hmem
    exact power_ne_zero hd (getLsbD_zero_of_ordSearch hd hk) n hn
  · exact power_injOn hd hk (List.mem_range.1 hi) (List.mem_range.1 hj) h

/-- A primitive `p` has all `2^d` residues in `Elems(p)`: 0 and the `2^d - 1` powers. -/
theorem outcomeEnum_of_primitive (hprim : polyPrimitive p) :
    outcomeEnum p =
      { len := 2 ^ deg p, elem := elemAt p, res := some (BitVec.ofNat w (2 ^ deg p)),
        ord := some (BitVec.ofNat w (groupOrder p)), err := .none, ovf := false } := by
  have hd := hprim.1
  have hcount : groupOrder p + 1 = 2 ^ deg p := Nat.sub_add_cancel Nat.one_le_two_pow
  rw [outcomeEnum_of_some hd ((polyPrimitive_iff_ordSearch hd).1 hprim), hcount]

theorem emits_of_primitive (hprim : polyPrimitive p) :
    (outcomeEnum p).emits = 0#w :: (List.range (groupOrder p)).map (power p) := by
  have hcount : groupOrder p + 1 = 2 ^ deg p := Nat.sub_add_cancel Nat.one_le_two_pow
  rw [outcomeEnum_of_primitive hprim, CommandOutcome.emits, ← hcount, map_elemAt_range_succ]

/-- Settles O39: the elements are 0 and the powers below the order, which are the nonzero residues, each once. -/
theorem enumOfAPrimitiveListsTheField : Obligations.EnumOfAPrimitiveListsTheField := by
  intro w p hprim
  have hd := hprim.1
  have hk := (polyPrimitive_iff_ordSearch hd).1 hprim
  obtain ⟨⟨hpos, -⟩, -⟩ := ordSearch_eq_some_iff.1 hk
  have houtcome := outcomeEnum_of_primitive hprim
  have hnodup : (outcomeEnum p).emits.Nodup := emits_of_primitive hprim ▸ nodup_powers hd hk
  have hone : (outcomeEnum p).emits[1]? = some 1#w := by
    rw [emits_of_primitive hprim, List.getElem?_cons_succ, List.getElem?_map, List.getElem?_range hpos]
    rfl
  have hlength : (outcomeEnum p).emits.length = 2 ^ deg p := by
    simp [CommandOutcome.emits, houtcome]
  refine ⟨by rw [houtcome], by rw [houtcome], hlength, hnodup, by rw [emits_of_primitive hprim]; rfl, hone,
    fun j hj hj1 => ?_, fun c hc => ?_⟩
  · have hlt : 1 < (outcomeEnum p).emits.length := (List.getElem?_eq_some_iff.1 hone).1
    have hj2 : 1 = j := (List.getElem?_inj hlt hnodup).1 (hone.trans hj1.symm)
    omega
  · rw [emits_of_primitive hprim, List.mem_cons, List.mem_map]
    refine or_iff_not_imp_left.2 fun hne => ?_
    obtain ⟨n, hn, hpower⟩ := (order_eq_groupOrder_iff hd hk).1 rfl c hne (hc.resolve_left hne)
    exact ⟨n, List.mem_range.2 hn, hpower⟩

end Sys2Proof.Machine

/-! PROOFS. Whole-machine rules: what each register answers to, and runs of many steps (10_state.md,
40_command_lifecycle.md, 70_reset_and_hazards.md). -/

namespace Sys2Proof.Machine

variable {P : Params}

/-! ### The operand registers (R21, R63) -/

/-- A host write that changes OPA is the write of the new value to OPA (R62). -/
theorem idx_of_hostWrite_opa_ne {b : Block P} {idx : RegIndex} {v : P.Word}
    (hne : (b.hostWrite idx v).opa ≠ b.opa) : idx = 0x2#4 ∧ v = (b.hostWrite idx v).opa := by
  rcases hostWrite_cases b v idx with ⟨-, -, h⟩ | ⟨-, -, h⟩ | ⟨-, -, h⟩ | ⟨-, -, h⟩ | ⟨rfl, h⟩ | ⟨-, h⟩ | ⟨-, h⟩
  case inr.inr.inr.inr.inl => exact ⟨rfl, by rw [h]⟩
  all_goals simp [h] at hne

/-- A host write that changes OPB is the write of the new value to OPB (R62). -/
theorem idx_of_hostWrite_opb_ne {b : Block P} {idx : RegIndex} {v : P.Word}
    (hne : (b.hostWrite idx v).opb ≠ b.opb) : idx = 0x3#4 ∧ v = (b.hostWrite idx v).opb := by
  rcases hostWrite_cases b v idx with ⟨-, -, h⟩ | ⟨-, -, h⟩ | ⟨-, -, h⟩ | ⟨-, -, h⟩ | ⟨-, h⟩ | ⟨rfl, h⟩ | ⟨-, h⟩
  case inr.inr.inr.inr.inr.inl => exact ⟨rfl, by rw [h]⟩
  all_goals simp [h] at hne

/-- Settles O50: neither the engine nor the consumer writes an operand register, and a host write only its own. -/
theorem onlyTheHostChangesTheOperands : Obligations.OnlyTheHostChangesTheOperands := by
  intro P b b' e e' hstep
  rcases step_inv hstep with ⟨-, rfl, -⟩ | ⟨_, -, rfl, -⟩ | ⟨idx, v, ht, rfl, -⟩ | ⟨-, -, rfl, -⟩ |
    ⟨v, q, -, -, rfl, -⟩ | ⟨ht, -, -⟩
  · obtain ⟨-, hopa, hopb, -⟩ := engineStep_frame b b.outcome
    exact ⟨fun hne => absurd hopa hne, fun hne => absurd hopb hne⟩
  · exact ⟨fun hne => absurd rfl hne, fun hne => absurd rfl hne⟩
  · refine ⟨fun hne => .inl ?_, fun hne => .inl ?_⟩
    · obtain ⟨rfl, hv⟩ := idx_of_hostWrite_opa_ne hne
      rw [ht, ← hv]
    · obtain ⟨rfl, hv⟩ := idx_of_hostWrite_opb_ne hne
      rw [ht, ← hv]
  · exact ⟨fun hne => absurd rfl hne, fun hne => absurd rfl hne⟩
  · exact ⟨fun hne => absurd rfl hne, fun hne => absurd rfl hne⟩
  · exact ⟨fun _ => .inr ht, fun _ => .inr ht⟩

/-- An engine step does not look at the operand registers (R63). -/
theorem engineStep_operands (b : Block P) (r : CommandOutcome P.W) (x y : P.Word) :
    ({ b with opa := x, opb := y } : Block P).engineStep r = { b.engineStep r with opa := x, opb := y } := by
  have hemit : ({ b with opa := x, opb := y } : Block P).emitEnabled r = b.emitEnabled r := rfl
  have hcomplete : ({ b with opa := x, opb := y } : Block P).completeEnabled r = b.completeEnabled r := rfl
  rw [Block.engineStep, Block.engineStep, hemit, hcomplete]
  split
  · rfl
  · split <;> rfl

/-- Settles O57: the outcome is that of the latched operands, and the engine step keeps the registers apart. -/
theorem operandWritesDoNotReachTheRunningCommand : Obligations.OperandWritesDoNotReachTheRunningCommand := by
  intro P b b' e e' x y hnext hstep
  obtain ⟨rfl, rfl⟩ := next_mk_inj ((step_engineNext b hnext).symm.trans hstep)
  rw [step_engineNext _ hnext, ← engineStep_operands]
  rfl

/-! ### The results (R30, R31, R104) -/

/-- RESULT, ORDER, ERR, OVF and AZERO: what R104 lets a completion write. -/
def Block.results (b : Block P) : P.Word × P.Word × BitVec 4 × Bool × Bool :=
  (b.result, b.order, statusErr b.status, statusOvf b.status, statusAzero b.status)

theorem results_eq_iff (b b' : Block P) :
    b'.results = b.results ↔ b'.result = b.result ∧ b'.order = b.order ∧ statusErr b'.status = statusErr b.status ∧
      statusOvf b'.status = statusOvf b.status ∧ statusAzero b'.status = statusAzero b.status := by
  simp [Block.results]

/-- No host write reaches the results (R62). -/
theorem hostWrite_results (b : Block P) (idx : RegIndex) (v : P.Word) :
    (b.hostWrite idx v).results = b.results := by
  rcases hostWrite_cases b v idx with ⟨-, -, h⟩ | ⟨-, -, h⟩ | ⟨-, -, h⟩ | ⟨-, -, h⟩ | ⟨-, h⟩ | ⟨-, h⟩ | ⟨-, h⟩ <;>
    simp [h, Block.results]

/-- An engine step leaves the results, or it is the completion step of the running command. -/
theorem engineStep_results_cases (b : Block P) (r : CommandOutcome P.W) :
    (b.engineStep r).results = b.results ∨
    (b.eng.state = .run ∧ b.eng.j = r.len ∧ (b.engineStep r).eng.state = .idle ∧
      statusDone (b.engineStep r).status = true) := by
  rcases engineStep_cases b r with ⟨-, h⟩ | ⟨hcomplete, h⟩ | ⟨-, -, h⟩
  · exact .inl (by rw [h]; rfl)
  · obtain ⟨hrun, hj⟩ := (completeEnabled_iff b r).1 hcomplete
    exact .inr ⟨hrun, hj, by rw [h]; rfl, by simp [h]⟩
  · exact .inl (by rw [h])

/-- Settles O51: of the turns that are not reset, the engine's alone can change the results, by a completion. -/
theorem onlyCompletionWritesTheResults : Obligations.OnlyCompletionWritesTheResults := by
  intro P b b' e e' hstep hchanged
  have hne : b'.results ≠ b.results := by
    rw [ne_eq, results_eq_iff]
    tauto
  rcases step_inv hstep with ⟨hnext, rfl, -⟩ | ⟨_, -, rfl, -⟩ | ⟨idx, v, -, rfl, -⟩ | ⟨-, -, rfl, -⟩ |
    ⟨v, q, -, -, rfl, -⟩ | ⟨ht, -, -⟩
  · rcases engineStep_results_cases b b.outcome with hsame | hcompletes
    · exact absurd hsame hne
    · exact .inl ⟨hnext, hcompletes⟩
  · exact absurd rfl hne
  · exact absurd (hostWrite_results b idx v) hne
  · exact absurd rfl hne
  · exact absurd rfl hne
  · exact .inr ht

/-! ### BUSY (R25) -/

/-- An engine step that changes BUSY is a completion. -/
theorem engineStep_busy_ne {b : Block P} {r : CommandOutcome P.W}
    (hne : statusBusy (b.engineStep r).status ≠ statusBusy b.status) :
    b.eng.state = .run ∧ (b.engineStep r).eng.state = .idle ∧ statusBusy (b.engineStep r).status = false := by
  rcases engineStep_cases b r with ⟨-, h⟩ | ⟨hcomplete, h⟩ | ⟨-, -, h⟩
  · simp [h] at hne
  · obtain ⟨hrun, -⟩ := (completeEnabled_iff b r).1 hcomplete
    exact ⟨hrun, by rw [h]; rfl, by simp [h]⟩
  · simp [h] at hne

/-- A host write that changes BUSY is an accepted command. -/
theorem hostWrite_busy_ne {b : Block P} {idx : RegIndex} {v : P.Word}
    (hne : statusBusy (b.hostWrite idx v).status ≠ statusBusy b.status) :
    idx = 0x0#4 ∧ b.eng.state = .idle ∧ b.hostWrite idx v = b.accept v := by
  rcases hostWrite_cases b v idx with h | ⟨-, -, h⟩ | ⟨-, -, h⟩ | ⟨-, -, h⟩ | ⟨-, h⟩ | ⟨-, h⟩ | ⟨-, h⟩
  case inl => exact h
  all_goals simp [h] at hne

/-- Settles O53, by whose turn it is: the engine's to complete, the host's to have a command accepted, or reset. -/
theorem onlyAcceptanceAndCompletionChangeBusy : Obligations.OnlyAcceptanceAndCompletionChangeBusy := by
  intro P b b' e e' hstep hne
  rcases step_inv hstep with ⟨hnext, rfl, -⟩ | ⟨_, -, rfl, -⟩ | ⟨idx, v, ht, rfl, -⟩ | ⟨-, -, rfl, -⟩ |
    ⟨v, q, -, -, rfl, -⟩ | ⟨ht, rfl, -⟩
  · exact .inr (.inl ⟨hnext, engineStep_busy_ne hne⟩)
  · exact absurd rfl hne
  · obtain ⟨rfl, hidle, heq⟩ := hostWrite_busy_ne hne
    exact .inl ⟨v, ht, hidle, by rw [heq]; rfl, by simp [heq]⟩
  · exact absurd rfl hne
  · exact absurd rfl hne
  · exact .inr (.inr ⟨ht, statusBusy_zero⟩)

/-! ### BUSY or DONE after acceptance (R68) -/

/-- A command has been accepted since reset, and STATUS says so. -/
def Block.ShowsCommand (b : Block P) : Prop := statusBusy b.status = true ∨ statusDone b.status = true

theorem showsCommand_kept : KeptByEveryEvent @Block.ShowsCommand where
  emit _ _ _ _ h := h
  complete _ _ _ _ := .inr (statusDone_completed _ _ _ _ (nine_le_W _))
  accept _ _ _ _ := .inl (statusBusy_accepted _ (nine_le_W _))
  reject _ _ _ h := by simpa [Block.ShowsCommand] using h
  clearRej _ h := by simpa [Block.ShowsCommand] using h
  operands _ _ _ h := h
  take _ _ _ _ h := h

/-- Settles O58: every event but reset keeps one of the two set, and the invariant of STATUS excludes both. -/
theorem afterAcceptanceStatusShowsBusyOrDone : Obligations.AfterAcceptanceStatusShowsBusyOrDone := by
  intro P b b' e e' hstep hinv hreset hshows
  exact ⟨showsCommand_kept.step_of_not_reset hstep hreset hshows,
    (statusInv_kept.step_of_not_reset hstep hreset hinv).not_busy_and_done⟩

/-! ### A run with a consumer (R105) -/

/-- The block `n` elements further, each of them taken: only the count has moved. -/
def Block.counted (b : Block P) (n : Nat) : Block P := { b with eng := { b.eng with j := b.eng.j + n } }

@[simp] theorem counted_zero (b : Block P) : b.counted 0 = b := rfl

@[simp] theorem counted_j (b : Block P) (n : Nat) : (b.counted n).eng.j = b.eng.j + n := rfl

@[simp] theorem counted_outcome (b : Block P) (n : Nat) : (b.counted n).outcome = b.outcome := rfl

theorem counted_counted (b : Block P) (m n : Nat) : (b.counted m).counted n = b.counted (m + n) := by
  simp [Block.counted, Nat.add_assoc]

/-- One round: the engine emits the next element into the empty FIFO and the consumer takes it. -/
theorem run_emit_take (b : Block P) (e : Env P) (ts : List (Turn P)) (n : Nat) (hrun : b.eng.state = .run)
    (hj : b.eng.j < b.outcome.len) (hq : b.outq = []) :
    Sys2Proof.core.run (n + 2) (⟨P, b, { e with turns := .engine :: .take :: ts }⟩ : State) =
      Sys2Proof.core.run n
        (⟨P, b.counted 1, { e with turns := ts, taken := e.taken ++ [b.outcome.elem b.eng.j] }⟩ : State) := by
  have hroom : b.outq.length < P.OUT_DEPTH := by rw [hq]; exact P.OUT_DEPTH_range.1
  have hemit : step ⟨P, b, { e with turns := .engine :: .take :: ts }⟩ =
      .next ⟨P, b.emit (b.outcome.elem b.eng.j), { e with turns := .take :: ts }⟩ := by
    rw [step_engineNext b (.inr rfl), engineStep_emit b _ hrun hj hroom]
    rfl
  have htake := (takeDeliversTheHead P (b.emit (b.outcome.elem b.eng.j)) e ts).1 (b.outcome.elem b.eng.j) []
    (by rw [emit_outq, hq, List.nil_append])
  have hblock : ({ b.emit (b.outcome.elem b.eng.j) with outq := [] } : Block P) = b.counted 1 := by
    rw [Block.emit, Block.counted, hq]
  rw [core_run_succ _ _ _ hemit, core_run_succ _ _ _ htake, hblock]

/-- With `n` elements left, `n` rounds and one engine step give the consumer those elements and complete the command. -/
theorem run_drainSchedule (n : Nat) (b : Block P) (e : Env P) (ts : List (Turn P)) (hrun : b.eng.state = .run)
    (hlen : b.eng.j + n = b.outcome.len) (hq : b.outq = []) :
    Sys2Proof.core.run (2 * n + 1) (⟨P, b, { e with turns := drainSchedule P n ++ ts }⟩ : State) =
      .next (⟨P, (b.counted n).complete b.outcome,
        { e with turns := ts, taken := e.taken ++ (List.range' b.eng.j n).map b.outcome.elem }⟩ : State) := by
  induction n generalizing b e with
  | zero =>
    have hstep : step ⟨P, b, { e with turns := .engine :: ts }⟩ =
        .next ⟨P, b.complete b.outcome, { e with turns := ts }⟩ := by
      rw [step_engineNext b (.inr rfl), engineStep_complete b _ hrun hlen]
      rfl
    rw [drainSchedule, List.singleton_append, core_run_succ _ _ _ hstep, core_run_zero]
    simp
  | succ n ih =>
    have hnext := ih (b.counted 1) { e with taken := e.taken ++ [b.outcome.elem b.eng.j] } hrun
      (by rw [counted_j, counted_outcome]; omega) hq
    rw [counted_counted, counted_j, counted_outcome, Nat.add_comm 1 n] at hnext
    rw [drainSchedule, List.cons_append, List.cons_append, show 2 * (n + 1) + 1 = 2 * n + 1 + 2 by omega,
      run_emit_take b e _ _ hrun (by omega) hq, hnext, List.range'_succ, List.map_cons, List.append_assoc]
    rfl

/-- Settles O55: from `j = 0` the elements left are all of `E`. -/
theorem aCommandRunsToCompletionWithAConsumer : Obligations.ACommandRunsToCompletionWithAConsumer := by
  intro P b e ts hrun hj hq
  refine ⟨(b.counted b.outcome.len).complete b.outcome, ?_, ?_⟩
  · rw [run_drainSchedule _ b e ts hrun (by rw [hj, Nat.zero_add]) hq, hj, ← List.range_eq_range']
    rfl
  · rw [Block.counted, hj, Nat.zero_add]
    exact complete_completed _ _

/-! ### A run without a consumer (R243) -/

/-- A running command has more elements left than the FIFO has room for. -/
def Block.Stalls (b : Block P) : Prop :=
  b.eng.state = .run ∧ b.eng.j + (P.OUT_DEPTH - b.outq.length) < b.outcome.len

/-- An engine step of such a command emits or holds: it stays so, with nothing completed. -/
theorem Block.Stalls.engineStep {b : Block P} (h : b.Stalls) :
    (b.engineStep b.outcome).Stalls ∧ (b.engineStep b.outcome).eng.state = b.eng.state := by
  obtain ⟨hrun, hleft⟩ := h
  by_cases hroom : b.outq.length < P.OUT_DEPTH
  · rw [engineStep_emit b _ hrun (by omega) hroom]
    refine ⟨⟨hrun, ?_⟩, rfl⟩
    rw [emit_eng, emit_outq, List.length_append, List.length_singleton]
    show b.eng.j + 1 + (P.OUT_DEPTH - (b.outq.length + 1)) < b.outcome.len
    omega
  · rw [engineStep_hold b _ (by omega) (Nat.le_of_not_lt hroom)]
    exact ⟨⟨hrun, hleft⟩, rfl⟩

/-- One turn of the engine or of a reading host. -/
theorem step_of_stalls {b : Block P} {e : Env P} (h : b.Stalls) (hpoll : e.turns.all Turn.isPoll = true) :
    ∃ (b' : Block P) (e' : Env P), step ⟨P, b, e⟩ = .next ⟨P, b', e'⟩ ∧ b'.Stalls ∧
      e'.turns.all Turn.isPoll = true ∧ b'.status = b.status ∧ b'.result = b.result ∧ b'.order = b.order := by
  obtain ⟨b', e', hstep, hturns⟩ := everyStepAnswersANextState P b e
  have hpoll' : e'.turns.all Turn.isPoll = true := by
    rw [hturns, List.all_eq_true]
    exact fun t ht => List.all_eq_true.1 hpoll t (List.mem_of_mem_tail ht)
  have hhead (t : Turn P) (ht : e.turns.head? = some t) : t.isPoll = true :=
    List.all_eq_true.1 hpoll t (List.mem_of_head? ht)
  refine ⟨b', e', hstep, ?_⟩
  rcases step_inv hstep with ⟨-, rfl, -⟩ | ⟨_, -, rfl, -⟩ | ⟨idx, v, ht, -, -⟩ | ⟨ht, -, -, -⟩ |
    ⟨v, q, ht, -, -, -⟩ | ⟨ht, -, -⟩
  · obtain ⟨hstalls, hstate⟩ := h.engineStep
    obtain ⟨hresult, horder, hstatus⟩ := engineStep_of_state_eq b _ hstate
    exact ⟨hstalls, hpoll', hstatus, hresult, horder⟩
  · exact ⟨h, hpoll', rfl, rfl, rfl⟩
  all_goals cases hhead _ ht

/-- Settles O56, by induction on the number of turns: such a command stays such a command. -/
theorem withoutAConsumerAStalledCommandNeverCompletes :
    Obligations.WithoutAConsumerAStalledCommandNeverCompletes := by
  intro P b e hrun hleft hpoll n
  have hstalls : b.Stalls := ⟨hrun, hleft⟩
  clear hrun hleft
  induction n generalizing b e with
  | zero => exact ⟨b, e, core_run_zero _, hstalls.1, rfl, rfl, rfl⟩
  | succ n ih =>
    obtain ⟨b₁, e₁, hstep, hstalls₁, hpoll₁, hstatus₁, hresult₁, horder₁⟩ := step_of_stalls hstalls hpoll
    obtain ⟨b', e', hruns, hrun', hstatus, hresult, horder⟩ := ih b₁ e₁ hpoll₁ hstalls₁
    exact ⟨b', e', (core_run_succ n _ _ hstep).trans hruns, hrun', hstatus.trans hstatus₁, hresult.trans hresult₁,
      horder.trans horder₁⟩

/-! ### Several instances (R41, R208) -/

/-- Settles O59: the step puts a machine at place `n` of the list, or nothing. -/
theorem instancesDoNotTouchEachOther : Obligations.InstancesDoNotTouchEachOther := by
  intro n m ms ms' hstep hmn
  unfold stepInstance at hstep
  split at hstep
  · cases hstep
    exact ⟨rfl, rfl⟩
  · split at hstep <;> cases hstep
    exact ⟨List.length_set, List.getElem?_set_ne hmn.symm⟩

end Sys2Proof.Machine
